-- ==== Sys2Proof/Word.lean ====
section
/-! DEFINITION. The machine word and the byte (spec 00_scope.md R7, R8): every value a rule names is an
unsigned 32-bit word with bit 0 the least significant; bytes occur in the host driver only. -/

namespace Sys2Proof

/-- The 32-bit unsigned word of R7 ("word width | 32 bits, unsigned"). `+` on it is addition modulo 2^32 (R10). -/
abbrev Word := BitVec 32

/-- A byte of the host driver's buffers (45_host_framing.md). The engine itself never takes a byte view (R41, R42). -/
abbrev Byte := BitVec 8

end Sys2Proof
end

