-- ==== Sys2Proof/Syntax.lean ====
section
/-! DEFINITION. The commands of SHA256CE: one constructor for every row of spec/opcode_table.json (30_encoding.md R64).
A command word names no register (R63); the only operand is the 6-bit IMM field of R60. -/

namespace Sys2Proof

/-- A command of R64. The operand of `krd`, `rotr` and `shr` is the IMM field v[13:8] of the command word (R62): every
value is legal for `krd`; for `rotr` and `shr` only 0..31 (bit 13 must be 0), which `Instr.wf` checks. -/
inductive Instr where
  | nop                        -- 0x00 NOP       R74
  | init                       -- 0x01 INIT      R75
  | compress                   -- 0x02 COMPRESS  R76
  | krd (imm : BitVec 6)       -- 0x03 KRD i     R85
  | rotr (imm : BitVec 6)      -- 0x10 ROTR n    R90
  | shr (imm : BitVec 6)       -- 0x11 SHR n     R91
  | add                        -- 0x12 ADD       R92
  | ssig0                      -- 0x20 SSIG0     R93
  | ssig1                      -- 0x21 SSIG1     R94
  | bsig0                      -- 0x22 BSIG0     R95
  | bsig1                      -- 0x23 BSIG1     R96
  | ch                         -- 0x24 CH        R97
  | maj                        -- 0x25 MAJ       R98
  | wstep                      -- 0x26 WSTEP     R99
  | t1p                        -- 0x27 T1P       R100
  | t2                         -- 0x28 T2        R101
  deriving DecidableEq, Repr

/-- The families of R64's table. -/
inductive Family where
  | block
  | rotatorAdder
  | mixing
  deriving DecidableEq, Repr

/-- The family column of R64. -/
def Instr.family : Instr → Family
  | .nop | .init | .compress | .krd _ => .block
  | .rotr _ | .shr _ | .add => .rotatorAdder
  | .ssig0 | .ssig1 | .bsig0 | .bsig1 | .ch | .maj | .wstep | .t1p | .t2 => .mixing

end Sys2Proof
end

