-- ==== Sys2Proof/WellFormed.lean ====
section
/-! DEFINITION. Which terms of `Instr` stand for a legal command (30_encoding.md R62, R70: "An operand out of range is an
assembly error: it must not be silently masked"). -/

namespace Sys2Proof

/-- A shift amount is legal when it is in 0..31, that is when bit 13 of the command word is 0 (R62, R65 case (d)). -/
def shiftInRange (imm : BitVec 6) : Bool := imm.toNat < 32

/-- The check of an instruction's operand: ROTR and SHR take 0..31 only; KRD takes every 6-bit index; no other command
has an operand (R62). -/
def Instr.wf : Instr → Bool
  | .rotr imm => shiftInRange imm
  | .shr imm => shiftInRange imm
  | .krd _ => true
  | .nop | .init | .compress | .add | .ssig0 | .ssig1 | .bsig0 | .bsig1 | .ch | .maj | .wstep | .t1p | .t2 => true

end Sys2Proof
end

