-- ==== Sys2Proof/Decode.lean ====
section
/-! DEFINITION. Command words: the field split of R60, a decoder that is total on every 32-bit word and rejects by name
(the four cases of R65), the match and mask table of R64, and the encoder of R64 and R72. -/

namespace Sys2Proof

/-- Why a command word is illegal: the four cases of R65. All of them set STATUS.ERR_CMD and change nothing else
(R119); the names are the decoder's own, and so is which name a word of several cases gets (log entry 14). -/
inductive IllegalWord where
  /-- R65 (a): v[31:14] is not 0. -/
  | reservedBits
  /-- R65 (b): v[7:0] is none of the 16 assigned opcodes. -/
  | reservedOpcode
  /-- R65 (c): v[13:8] is not 0 for a command without an immediate. -/
  | nonzeroImm
  /-- R65 (d): v[13] = 1 for ROTR or SHR. -/
  | shiftTooLarge
  deriving DecidableEq, Repr

/-- OPCODE, bits 7:0 (R60). -/
def opcodeField (v : Word) : BitVec 8 := v.extractLsb' 0 8

/-- IMM, bits 13:8 (R60). -/
def immField (v : Word) : BitVec 6 := v.extractLsb' 8 6

/-- RSVD, bits 31:14 (R60). -/
def rsvdField (v : Word) : BitVec 18 := v.extractLsb' 14 18

/-- A command without an immediate: IMM must be 0 (R62). -/
def withoutImm (imm : BitVec 6) (i : Instr) : Except IllegalWord Instr :=
  if imm = 0 then .ok i else .error .nonzeroImm

/-- A command with a shift amount: bit 13 must be 0 (R62). -/
def withShift (imm : BitVec 6) (i : Instr) : Except IllegalWord Instr :=
  if shiftInRange imm then .ok i else .error .shiftTooLarge

/-- The opcode map of R64, given the OPCODE and IMM fields. -/
def decodeFields (op : BitVec 8) (imm : BitVec 6) : Except IllegalWord Instr :=
  match op.toNat with
  | 0x00 => withoutImm imm .nop
  | 0x01 => withoutImm imm .init
  | 0x02 => withoutImm imm .compress
  | 0x03 => .ok (.krd imm)
  | 0x10 => withShift imm (.rotr imm)
  | 0x11 => withShift imm (.shr imm)
  | 0x12 => withoutImm imm .add
  | 0x20 => withoutImm imm .ssig0
  | 0x21 => withoutImm imm .ssig1
  | 0x22 => withoutImm imm .bsig0
  | 0x23 => withoutImm imm .bsig1
  | 0x24 => withoutImm imm .ch
  | 0x25 => withoutImm imm .maj
  | 0x26 => withoutImm imm .wstep
  | 0x27 => withoutImm imm .t1p
  | 0x28 => withoutImm imm .t2
  | _ => .error .reservedOpcode

/-- The decoder: every 32-bit word is one command or is illegal (R59, R65, R67, R68). -/
def decode (v : Word) : Except IllegalWord Instr :=
  if rsvdField v = 0 then decodeFields (opcodeField v) (immField v) else .error .reservedBits

/-- The OPCODE of a command (R64). -/
def Instr.opcode : Instr → BitVec 8
  | .nop => 0x00
  | .init => 0x01
  | .compress => 0x02
  | .krd _ => 0x03
  | .rotr _ => 0x10
  | .shr _ => 0x11
  | .add => 0x12
  | .ssig0 => 0x20
  | .ssig1 => 0x21
  | .bsig0 => 0x22
  | .bsig1 => 0x23
  | .ch => 0x24
  | .maj => 0x25
  | .wstep => 0x26
  | .t1p => 0x27
  | .t2 => 0x28

/-- The IMM field of a command: its operand, or 0 (R60, R62). -/
def Instr.imm : Instr → BitVec 6
  | .krd imm | .rotr imm | .shr imm => imm
  | .nop | .init | .compress | .add | .ssig0 | .ssig1 | .bsig0 | .bsig1 | .ch | .maj | .wstep | .t1p | .t2 => 0

/-- The command word of an instruction: RSVD = 0, then IMM, then OPCODE; R70 "(imm << 8) OR OPCODE". -/
def encode (i : Instr) : Word := (i.imm.setWidth 32 <<< 8) ||| i.opcode.setWidth 32

/-- The mnemonic of a command, as R64 and spec/opcode_table.json spell it. -/
def Instr.mnemonic : Instr → String
  | .nop => "NOP"
  | .init => "INIT"
  | .compress => "COMPRESS"
  | .krd _ => "KRD"
  | .rotr _ => "ROTR"
  | .shr _ => "SHR"
  | .add => "ADD"
  | .ssig0 => "SSIG0"
  | .ssig1 => "SSIG1"
  | .bsig0 => "BSIG0"
  | .bsig1 => "BSIG1"
  | .ch => "CH"
  | .maj => "MAJ"
  | .wstep => "WSTEP"
  | .t1p => "T1P"
  | .t2 => "T2"

/-- One row of the match and mask table at the end of R64. -/
structure OpcodeRow where
  mnemonic : String
  mask : Word
  pattern : Word
  deriving DecidableEq, Repr

/-- R64: "For the 13 commands without an immediate, mask = 0xFFFFFFFF and match = OPCODE. For ROTR and SHR,
mask = 0xFFFFE0FF, match = OPCODE. For KRD, mask = 0xFFFFC0FF, match = 0x00000003." -/
def opcodeTable : List OpcodeRow :=
  [⟨"NOP", 0xFFFFFFFF, 0x00⟩, ⟨"INIT", 0xFFFFFFFF, 0x01⟩, ⟨"COMPRESS", 0xFFFFFFFF, 0x02⟩, ⟨"KRD", 0xFFFFC0FF, 0x03⟩,
   ⟨"ROTR", 0xFFFFE0FF, 0x10⟩, ⟨"SHR", 0xFFFFE0FF, 0x11⟩, ⟨"ADD", 0xFFFFFFFF, 0x12⟩] ++
  [⟨"SSIG0", 0xFFFFFFFF, 0x20⟩, ⟨"SSIG1", 0xFFFFFFFF, 0x21⟩, ⟨"BSIG0", 0xFFFFFFFF, 0x22⟩, ⟨"BSIG1", 0xFFFFFFFF, 0x23⟩,
   ⟨"CH", 0xFFFFFFFF, 0x24⟩, ⟨"MAJ", 0xFFFFFFFF, 0x25⟩, ⟨"WSTEP", 0xFFFFFFFF, 0x26⟩, ⟨"T1P", 0xFFFFFFFF, 0x27⟩,
   ⟨"T2", 0xFFFFFFFF, 0x28⟩]

/-- A row admits a word when (v AND mask) = match (R65). -/
def OpcodeRow.admits (r : OpcodeRow) (v : Word) : Bool := v &&& r.mask == r.pattern

/-- R65: a command word is legal if and only if it is admitted by one row of the table of R64. -/
def legal (v : Word) : Bool := opcodeTable.any (fun r => r.admits v)

/-- The instruction the decoder reads from a table row's word: the word's bits numbered from bit 0, those above
`nbits` taken as 0. A command word is one 32-bit bus write with no byte lanes (R41, R59), so no byte order enters. -/
def decodeTableWord (nbits w : Nat) : Option Instr :=
  if w % 2 ^ nbits < 2 ^ 32 then (decode (BitVec.ofNat 32 (w % 2 ^ nbits))).toOption else none

end Sys2Proof
end

