-- ==== Sys2Proof/Machine/Functions.lean ====
section
/-! DEFINITION. The rotator, the shifter and the mixing functions (00_scope.md R10, R11), each defined once for the
commands of 41_mixing_functions.md and for the compression alike (92_eei_decisions.md D30: "a model must use one
definition for both"). -/

namespace Sys2Proof.Machine

/-- `SHR(x, n)` = `x >>> n`, 0 ≤ n ≤ 31: the zero-filling logical right shift (R10). -/
def shr (x : Word) (n : Nat) : Word := x >>> n

/-- `rotr(x, n)`, 0 ≤ n ≤ 31: the 32-bit right rotation by R10's formula, with rotr(x, 0) = x. -/
def rotr (x : Word) (n : Nat) : Word := if n = 0 then x else (x >>> n) ||| (x <<< (32 - n))

/-- σ0 (R11), the function of SSIG0. -/
def ssig0 (x : Word) : Word := rotr x 7 ^^^ rotr x 18 ^^^ shr x 3

/-- σ1 (R11), the function of SSIG1. -/
def ssig1 (x : Word) : Word := rotr x 17 ^^^ rotr x 19 ^^^ shr x 10

/-- Σ0 (R11), the function of BSIG0. -/
def bsig0 (x : Word) : Word := rotr x 2 ^^^ rotr x 13 ^^^ rotr x 22

/-- Σ1 (R11), the function of BSIG1. -/
def bsig1 (x : Word) : Word := rotr x 6 ^^^ rotr x 11 ^^^ rotr x 25

/-- Ch(e, f, g) (R11). -/
def ch (e f g : Word) : Word := (e &&& f) ^^^ (~~~e &&& g)

/-- Maj(a, b, c) (R11). -/
def maj (a b c : Word) : Word := (a &&& b) ^^^ (a &&& c) ^^^ (b &&& c)

/-- One step of the schedule expander from W[i−2], W[i−7], W[i−15], W[i−16] (R78, R99). -/
def wstep (w2 w7 w15 w16 : Word) : Word := ssig1 w2 + w7 + ssig0 w15 + w16

/-- The partial first temporary of a round, h + Σ1(e) + Ch(e, f, g) (R79, R100). -/
def t1p (e f g h : Word) : Word := h + bsig1 e + ch e f g

/-- The second temporary of a round, Σ0(a) + Maj(a, b, c) (R79, R101). -/
def t2 (a b c : Word) : Word := bsig0 a + maj a b c

end Sys2Proof.Machine
end

