-- ==== Sys2Proof/Config.lean ====
section
/-! DEFINITION. What an implementation fixes and what the spec leaves open (00_scope.md R7; 93_implementation_defined.md
U4, U10, U11). Every constant here is opaque: it has no body, so a claim about it holds whatever its value is.
`ENGINE_BASE` and `N_ENGINES` are arguments of `Sys2Proof.Machine.Platform` (Machine/Platform.lean), not constants. -/

namespace Sys2Proof.Config

/-- LAT_COMPRESS − 1 (R7, R141: finite and at least 1; a model must not fix it). -/
opaque latCompressPred : Nat

/-- LAT_COMPRESS: the number of engine cycles from the acceptance of a COMPRESS to its completion (R7, R82, R87).
Open parameter, at least 1. Log entry 1. -/
def latCompress : Nat := latCompressPred + 1

/-- FREE VALUE: how many host transactions are performed before the engine's next cycle while a COMPRESS is pending,
at the k-th free choice of a run. R53: the completion happens "after a finite number of further transactions,
possibly none. The model leaves that number open"; U11 "any value". Log entry 2. -/
opaque hostTurns : Nat → Nat

/-- FREE VALUE: word i of the hidden schedule W where its content is unspecified (R33, R36, U4), at the k-th free
choice of a run. Log entry 3. -/
opaque freeW : Nat → Nat → Word

/-- FREE VALUE: hidden working variable j (0 = a, ..., 7 = h) where its content is unspecified (R34, R36, U4), at the
k-th free choice of a run. Log entry 3. -/
opaque freeVar : Nat → Nat → Word

/-- FREE VALUE: the hidden round index, 0..64, where it is unspecified (R34, R36, U4), at the k-th free choice of a
run. Log entry 3. -/
opaque freeRound : Nat → Fin 65

end Sys2Proof.Config
end

