-- ==== Sys2Proof/Machine/State.lean ====
section
/-! DEFINITION. The state of one SHA256CE engine with its bus (10_state.md R17 to R37), plain data, and its value right
after reset (R36). The constants K, IV, ID and VERSION are in Machine/Rom.lean; CMD holds no value (R23). -/

namespace Sys2Proof.Machine

/-- The working variables a..h of the compression (R34), also the 8-tuple v of R79 and R80. -/
structure Vars where
  a : Word
  b : Word
  c : Word
  d : Word
  e : Word
  f : Word
  g : Word
  h : Word
  deriving DecidableEq, Repr

/-- The phase of the compression sequencer (R34). -/
inductive Phase where
  | idle
  | schedule
  | rounds
  | feedForward
  deriving DecidableEq, Repr

/-- The hidden state: the message schedule W (R33) and the compression sequencer (R34). No bus transaction reads or
writes it. -/
structure Sequencer where
  w : Vector Word 64
  vars : Vars
  round : Fin 65
  phase : Phase
  deriving DecidableEq, Repr

/-- What the outside world does to the engine, one item at a time (R13, R52): a host read or write transaction of n bytes
at a byte offset of the 0x100-byte window (R38, R43, R44), or the platform's reset event (R131). The value of a write
is held as one word: a write of any other width than 4 bytes is a BusError whatever its value (R45). -/
inductive BusEvent where
  | read (off : BitVec 8) (n : Nat)
  | write (off : BitVec 8) (n : Nat) (v : Word)
  | reset
  deriving DecidableEq, Repr

/-- What the bus answers to a transaction: the data of a read, the normal completion of a write, or the error response
BusError(off) of R118. DESIGN CHOICE, log entry 7. -/
inductive Response where
  | data (v : Word)
  | done
  | busError (off : BitVec 8)
  deriving DecidableEq, Repr

/-- Why a step stops with a fault: never. R116 and R117 list every error of the engine, and each one is a bus error
response (R118) or a sticky STATUS bit (R119, R120) after which the engine goes on, so this type has no constructor.
Safe: there is nothing to raise. -/
inductive Fault where
  deriving DecidableEq, Repr

/-- Why a step gives no meaning. -/
inductive Refusal where
  /-- Raised by an arm of `exec` for an instruction without a meaning yet, which has none to name now. Safe: the run
  stops. -/
  | notModelled (mnemonic : String)
  deriving DecidableEq, Repr

/-- One SHA256CE engine with what stands on its bus. -/
structure State where
  /-- OPA (R19). -/
  opa : Word
  /-- OPB (R19). -/
  opb : Word
  /-- OPC (R19). -/
  opc : Word
  /-- OPD (R19). -/
  opd : Word
  /-- RES (R20). -/
  res : Word
  /-- STATUS.BUSY, bit 0 (R24, R25). -/
  busy : Bool
  /-- STATUS.DONE, bit 1 (R24, R26). -/
  done : Bool
  /-- STATUS.ERR_BUSY, bit 2 (R24, R27). -/
  errBusy : Bool
  /-- STATUS.ERR_CMD, bit 3 (R24, R28). -/
  errCmd : Bool
  /-- M[0..15], the message block buffer (R29). -/
  m : Vector Word 16
  /-- H[0..7], the chaining state (R30). -/
  h : Vector Word 8
  /-- W[0..63], a..h, round index and phase (R33, R34). -/
  seq : Sequencer
  /-- MODEL'S OWN: engine cycles until the pending COMPRESS completes, counted down from LAT_COMPRESS (R82); 0 when none
  is pending. -/
  cyclesLeft : Nat
  /-- MODEL'S OWN: host transactions performed before the engine's next cycle while BUSY = 1 (R53). -/
  hostTurns : Nat
  /-- MODEL'S OWN: the counter of free choices, to which the free values of Config are applied. -/
  freeCtr : Nat
  /-- HOST INTERFACE: what the outside world has still to do, in order of arrival (R52). -/
  queue : List BusEvent
  /-- HOST INTERFACE: what the bus has answered so far, newest first. -/
  responses : List Response
  deriving DecidableEq, Repr

/-- Hidden state at `State.reset`: the phase is idle (R36); W, a..h and the round index are "unspecified, unobservable"
there, and the model names 0 for them. DESIGN CHOICE, log entry 4. -/
def Sequencer.reset : Sequencer :=
  { w := Vector.replicate 64 0, vars := ⟨0, 0, 0, 0, 0, 0, 0, 0⟩, round := 0, phase := .idle }

/-- The engine right after reset (R36, R131), with nothing on its bus. -/
def State.reset : State :=
  { opa := 0, opb := 0, opc := 0, opd := 0, res := 0,
    busy := false, done := false, errBusy := false, errCmd := false,
    m := Vector.replicate 16 0, h := IV, seq := Sequencer.reset,
    cyclesLeft := 0, hostTurns := 0, freeCtr := 0, queue := [], responses := [] }

end Sys2Proof.Machine
end

