-- ==== Sys2Proof/Machine/Compression.lean ====
section
/-! DEFINITION. The message-schedule expander, the round and the compression function (40_block_commands.md R78 to R80),
written as loops of the single steps that the sequencer takes one at a time (Machine/Ops.lean). -/

namespace Sys2Proof.Machine

/-- The value R78 gives W[i]: M[i] for i in 0..15, and the recurrence over earlier entries for i in 16..63. -/
def scheduleWord (m : Vector Word 16) (w : Vector Word 64) (i : Fin 64) : Word :=
  if hi : i.val < 16 then m[i.val]
  else wstep w[i.val - 2] w[i.val - 7] w[i.val - 15] w[i.val - 16]

/-- One iteration of R78's loops: `W[i] <- ...`. -/
def scheduleStep (m : Vector Word 16) (w : Vector Word 64) (i : Fin 64) : Vector Word 64 :=
  w.set i.val (scheduleWord m w i)

/-- The schedule after the iterations 0 .. n−1 of R78, started on any content of W. -/
def scheduleUpTo (m : Vector Word 16) (w : Vector Word 64) : Nat → Vector Word 64
  | 0 => w
  | n + 1 => if hn : n < 64 then scheduleStep m (scheduleUpTo m w n) ⟨n, hn⟩ else scheduleUpTo m w n

/-- `Expand(M)` (R78): all 64 iterations. What W held before is overwritten. -/
def expand (m : Vector Word 16) : Vector Word 64 := scheduleUpTo m (Vector.replicate 64 0) 64

/-- `Round(i, v, W)` (R79): a simultaneous update of the 8-tuple. -/
def roundStep (w : Vector Word 64) (v : Vars) (i : Fin 64) : Vars :=
  let temp1 := t1p v.e v.f v.g v.h + K[i.val] + w[i.val]
  let temp2 := t2 v.a v.b v.c
  { a := temp1 + temp2, b := v.a, c := v.b, d := v.c, e := v.d + temp1, f := v.e, g := v.f, h := v.g }

/-- The working variables after the rounds 0 .. n−1. -/
def roundsUpTo (w : Vector Word 64) (v : Vars) : Nat → Vars
  | 0 => v
  | n + 1 => if hn : n < 64 then roundStep w (roundsUpTo w v n) ⟨n, hn⟩ else roundsUpTo w v n

/-- The working variables "seeded from the current state" (R80). -/
def seed (h : Vector Word 8) : Vars :=
  { a := h[0], b := h[1], c := h[2], d := h[3], e := h[4], f := h[5], g := h[6], h := h[7] }

/-- The feed-forward of R80: `H'[j] <- (H[j] + v[j]) mod 2^32`, a to H[0], ..., h to H[7]. -/
def feedForward (h : Vector Word 8) (v : Vars) : Vector Word 8 :=
  ⟨#[h[0] + v.a, h[1] + v.b, h[2] + v.c, h[3] + v.d, h[4] + v.e, h[5] + v.f, h[6] + v.g, h[7] + v.h], rfl⟩

/-- `Compress(H, M)` (R80): 64 rounds over the expanded schedule, then the feed-forward. -/
def compress (h : Vector Word 8) (m : Vector Word 16) : Vector Word 8 :=
  feedForward h (roundsUpTo (expand m) (seed h) 64)

end Sys2Proof.Machine
end

