-- ==== Sys2Proof/Machine/Flags.lean ====
section
/-! DEFINITION. The STATUS register (10_state.md R24 to R28): its read view, the write-one-to-clear rule, and the two
error reports that set a sticky bit (60_exceptions.md R119, R120). No other flag exists (R24, R89). -/

namespace Sys2Proof.Machine

/-- STATUS as a bus read returns it: zext_32(ERR_CMD ‖ ERR_BUSY ‖ DONE ‖ BUSY) (R43); bits 31:4 read 0 (R24). -/
def statusWord (s : State) : Word :=
  (BitVec.ofBool s.errCmd ++ BitVec.ofBool s.errBusy ++ BitVec.ofBool s.done ++ BitVec.ofBool s.busy).setWidth 32

/-- A host write of v to STATUS: bits 1, 2 and 3 are write-one-to-clear; v[0] and v[31:4] are ignored (R24, R46). -/
def writeStatus (v : Word) (s : State) : State :=
  { s with
    done := s.done && !v.getLsbD 1
    errBusy := s.errBusy && !v.getLsbD 2
    errCmd := s.errCmd && !v.getLsbD 3 }

/-- `flag ERR_BUSY` (R9): a write rejected because BUSY = 1 sets the sticky bit and has no other effect (R120). -/
def flagErrBusy (s : State) : State := { s with errBusy := true }

/-- `flag ERR_CMD` (R9): an illegal command word sets the sticky bit and changes nothing else (R119). -/
def flagErrCmd (s : State) : State := { s with errCmd := true }

end Sys2Proof.Machine
end

