-- ==== Sys2Proof/Machine/Operands.lean ====
section
/-! DEFINITION. The operand forms of a command (30_encoding.md R62, R63): the implicit operand registers OPA to OPD, the
shift amount and the table index of the IMM field, and the implicit result register RES. -/

namespace Sys2Proof.Machine

/-- The four operand registers as a command finds them at its CMD write (R89). -/
structure Operands where
  a : Word
  b : Word
  c : Word
  d : Word
  deriving DecidableEq, Repr

/-- Reading OPA to OPD (R63, R89). -/
def State.operands (s : State) : Operands := { a := s.opa, b := s.opb, c := s.opc, d := s.opd }

/-- The shift amount n = v[12:8] of ROTR and SHR, where bit 13 is 0; `none` is the illegal word of R65 (d). -/
def shiftAmount (imm : BitVec 6) : Option Nat := if shiftInRange imm then some imm.toNat else none

/-- The table index i = v[13:8] of KRD: every value is legal (R62). -/
def tableIndex (imm : BitVec 6) : Fin 64 := imm.toFin

/-- `RES <- v` (R20): only KRD and the primitive commands do it. -/
def setRes (v : Word) (s : State) : State := { s with res := v }

end Sys2Proof.Machine
end

