-- ==== Sys2Proof/Machine/Ops.lean ====
section
/-! DEFINITION. The named operations of the machine: how a command is taken or turned away, the acceptance and the
completion of a COMPRESS (R81, R82), the engine's own cycle, the reset event (R131), the register map (R39) and a read
transaction (R43). A write transaction can run a command, so it stands after `exec`, in Machine/Bus.lean. -/

namespace Sys2Proof.Machine

/-! ### Taking a command, and the errors

There are no traps (R116, R122): "taking an exception" on this hardware is setting one sticky STATUS bit, or answering
BusError, and going on. -/

/-- Every command of R73's template: with BUSY = 1 it is rejected with ERR_BUSY and does not run (R86, R120); with
BUSY = 0 it has its effect within the CMD write (R66). DEDUCED, log entry 10. -/
def command (effect : State → State) (s : State) : Host.Outcome State Fault Refusal :=
  if s.busy then .next (flagErrBusy s) else .next (effect s)

/-- A primitive command (R89): a pure function of OPA to OPD written to RES, and nothing else. -/
def primitive (f : Operands → Word) (s : State) : Host.Outcome State Fault Refusal :=
  command (fun s => setRes (f s.operands) s) s

/-- A primitive command with a shift amount. An IMM with bit 13 set is the illegal word of R65 (d): ERR_CMD, and nothing
else (R119). -/
def shiftPrimitive (f : Word → Nat → Word) (imm : BitVec 6) (s : State) : Host.Outcome State Fault Refusal :=
  command
    (fun s =>
      match shiftAmount imm with
      | some n => setRes (f s.opa n) s
      | none => flagErrCmd s)
    s

/-! ### COMPRESS and the engine sequencer -/

/-- INIT's effect: `for i in 0..7: H[i] <- IV[i]` (R75). -/
def reloadIV (s : State) : State := { s with h := IV }

/-- COMPRESS acceptance (R81): BUSY <- 1, DONE <- 0, and the sequencer starts on the current H and M. The model's own
fields take LAT_COMPRESS and the first free number of host turns. -/
def acceptCompress (s : State) : State :=
  { s with
    busy := true
    done := false
    seq := { s.seq with phase := .schedule, round := 0 }
    cyclesLeft := Config.latCompress
    hostTurns := Config.hostTurns s.freeCtr
    freeCtr := s.freeCtr + 1 }

/-- Hidden state where its content is unspecified (R33, R34, R36; U4 "any value"): phase idle, all else free. -/
def freeSequencer (k : Nat) : Sequencer :=
  { w := Vector.ofFn (fun i => Config.freeW k i.val)
    vars := ⟨Config.freeVar k 0, Config.freeVar k 1, Config.freeVar k 2, Config.freeVar k 3,
             Config.freeVar k 4, Config.freeVar k 5, Config.freeVar k 6, Config.freeVar k 7⟩
    round := Config.freeRound k
    phase := .idle }

/-- COMPRESS completion, the engine's own step (R82): H <- Compress(H, M), all eight words at once; BUSY <- 0;
DONE <- 1. The hidden state is unspecified from here on (DEDUCED, log entry 3). -/
def complete (s : State) : State :=
  { s with
    h := compress s.h s.m
    busy := false
    done := true
    seq := freeSequencer s.freeCtr
    cyclesLeft := 0
    freeCtr := s.freeCtr + 1 }

/-- One hidden micro-step of the sequencer (R33, R34; the loop structure is free, R88): one schedule word, or one round,
or the move to the next phase. In the feed-forward phase it waits for the completion. DESIGN CHOICE, log entry 6. -/
def tick (m : Vector Word 16) (h : Vector Word 8) (q : Sequencer) : Sequencer :=
  match q.phase with
  | .idle => q
  | .schedule =>
    if hr : q.round.val < 64 then
      { q with w := scheduleStep m q.w ⟨q.round.val, hr⟩, round := ⟨q.round.val + 1, Nat.succ_lt_succ hr⟩ }
    else { q with phase := .rounds, vars := seed h, round := 0 }
  | .rounds =>
    if hr : q.round.val < 64 then
      { q with vars := roundStep q.w q.vars ⟨q.round.val, hr⟩, round := ⟨q.round.val + 1, Nat.succ_lt_succ hr⟩ }
    else { q with phase := .feedForward }
  | .feedForward => q

/-- One cycle of the engine while BUSY = 1: the LAT_COMPRESS-th cycle after acceptance completes the COMPRESS (R82); an
earlier one is hidden work, after which a free number of host transactions may come before the next (R53). -/
def engineCycle (s : State) : State :=
  if s.cyclesLeft ≤ 1 then complete s
  else
    { s with
      seq := tick s.m s.h s.seq
      cyclesLeft := s.cyclesLeft - 1
      hostTurns := Config.hostTurns s.freeCtr
      freeCtr := s.freeCtr + 1 }

/-- Which agent of R13 moves next: the host when it has something to do and either nothing is pending or it still has
turns before the engine's next cycle; else the engine. The host's queue is finite and each cycle's turns are, so the
engine always moves in the end (R53's weak fairness). -/
def hostMoves (s : State) : Bool := !s.queue.isEmpty && (!s.busy || s.hostTurns != 0)

/-! ### Reset -/

/-- The reset event (R131, R132), between two transactions: every register to its value of R36, a pending COMPRESS
abandoned, the hidden state unspecified with phase idle. What the host does next and has seen so far is outside the
engine and stays. DESIGN CHOICE, log entry 8. -/
def applyReset (s : State) : State :=
  { s with
    opa := 0, opb := 0, opc := 0, opd := 0, res := 0
    busy := false, done := false, errBusy := false, errCmd := false
    m := Vector.replicate 16 0
    h := IV
    seq := freeSequencer s.freeCtr
    cyclesLeft := 0
    freeCtr := s.freeCtr + 1 }

/-! ### The register map and a read transaction -/

/-- The registers of the window (R39). -/
inductive Reg where
  | id
  | version
  | cmd
  | status
  | opa
  | opb
  | opc
  | opd
  | res
  | m (j : Fin 16)
  | h (i : Fin 8)
  deriving DecidableEq, Repr

/-- The offset column of R39. -/
def regOffset : Reg → BitVec 8
  | .id => 0x00
  | .version => 0x04
  | .cmd => 0x08
  | .status => 0x0C
  | .opa => 0x10
  | .opb => 0x14
  | .opc => 0x18
  | .opd => 0x1C
  | .res => 0x20
  | .m j => BitVec.ofNat 8 (0x40 + 4 * j.val)
  | .h i => BitVec.ofNat 8 (0x80 + 4 * i.val)

/-- The register at word k of the window (offset 4k), none where R40 reserves the range. -/
def regAtWord (k : Nat) : Option Reg :=
  match k with
  | 0 => some .id
  | 1 => some .version
  | 2 => some .cmd
  | 3 => some .status
  | 4 => some .opa
  | 5 => some .opb
  | 6 => some .opc
  | 7 => some .opd
  | 8 => some .res
  | _ =>
    if hm : 16 ≤ k ∧ k < 32 then some (.m ⟨k - 16, by omega⟩)
    else if hh : 32 ≤ k ∧ k < 40 then some (.h ⟨k - 32, by omega⟩)
    else none

/-- The register a transaction of n bytes at offset off reaches, or none where it raises BusError: a width other than 4,
an offset that is no multiple of 4, an unmapped offset (R40, R45, R118). The first check of R121. Log entry 9. -/
def target (off : BitVec 8) (n : Nat) : Option Reg :=
  if n = 4 ∧ off.toNat % 4 = 0 then regAtWord (off.toNat / 4) else none

/-- What a bus read of a register returns (R43); CMD reads as 0 (R23, R46). -/
def readReg (r : Reg) (s : State) : Word :=
  match r with
  | .id => idValue
  | .version => versionValue
  | .cmd => 0
  | .status => statusWord s
  | .opa => s.opa
  | .opb => s.opb
  | .opc => s.opc
  | .opd => s.opd
  | .res => s.res
  | .m j => s.m[j.val]
  | .h i => s.h[i.val]

/-- The answer to a read transaction `MemRead(off, n)` (R43). -/
def memRead (off : BitVec 8) (n : Nat) (s : State) : Response :=
  match target off n with
  | some r => .data (readReg r s)
  | none => .busError off

/-- The bus answers one transaction. -/
def respond (r : Response) (s : State) : State := { s with responses := r :: s.responses }

/-- The answer to a write transaction: normal completion, also of a rejected or ignored write (R46, R119, R120), or
BusError (R118). -/
def writeResponse (off : BitVec 8) (n : Nat) : Response :=
  match target off n with
  | some _ => .done
  | none => .busError off

end Sys2Proof.Machine
end

