-- ==== Sys2Proof/Machine/Block.lean ====
section
/-! DEFINITION. The block family: NOP, INIT, COMPRESS, KRD (40_block_commands.md R74 to R85). -/

namespace Sys2Proof.Machine

/-- NOP (R74): nothing. -/
def execNop (s : State) : Host.Outcome State Fault Refusal := command (fun s => s) s

/-- INIT (R75): H <- IV, and nothing else. -/
def execInit (s : State) : Host.Outcome State Fault Refusal := command reloadIV s

/-- COMPRESS (R76): its acceptance (R81); the completion (R82) is the engine's own step, `complete`. -/
def execCompress (s : State) : Host.Outcome State Fault Refusal := command acceptCompress s

/-- KRD i (R85): RES <- K[i]. -/
def execKrd (imm : BitVec 6) (s : State) : Host.Outcome State Fault Refusal :=
  command (setRes K[(tableIndex imm).val]) s

end Sys2Proof.Machine
end

