-- ==== Sys2Proof/Machine/Mixing.lean ====
section
/-! DEFINITION. The mixing family: SSIG0, SSIG1, BSIG0, BSIG1, CH, MAJ, WSTEP, T1P, T2 (41_mixing_functions.md R93 to R101),
each over the function of Machine/Functions.lean that the compression uses. -/

namespace Sys2Proof.Machine

/-- SSIG0 (R93): RES <- σ0(OPA). -/
def execSsig0 (s : State) : Host.Outcome State Fault Refusal := primitive (fun o => ssig0 o.a) s

/-- SSIG1 (R94): RES <- σ1(OPA). -/
def execSsig1 (s : State) : Host.Outcome State Fault Refusal := primitive (fun o => ssig1 o.a) s

/-- BSIG0 (R95): RES <- Σ0(OPA). -/
def execBsig0 (s : State) : Host.Outcome State Fault Refusal := primitive (fun o => bsig0 o.a) s

/-- BSIG1 (R96): RES <- Σ1(OPA). -/
def execBsig1 (s : State) : Host.Outcome State Fault Refusal := primitive (fun o => bsig1 o.a) s

/-- CH (R97): RES <- Ch(OPA, OPB, OPC). -/
def execCh (s : State) : Host.Outcome State Fault Refusal := primitive (fun o => ch o.a o.b o.c) s

/-- MAJ (R98): RES <- Maj(OPA, OPB, OPC). -/
def execMaj (s : State) : Host.Outcome State Fault Refusal := primitive (fun o => maj o.a o.b o.c) s

/-- WSTEP (R99): RES <- σ1(OPA) + OPB + σ0(OPC) + OPD. -/
def execWstep (s : State) : Host.Outcome State Fault Refusal := primitive (fun o => wstep o.a o.b o.c o.d) s

/-- T1P (R100): RES <- OPD + Σ1(OPA) + Ch(OPA, OPB, OPC). -/
def execT1p (s : State) : Host.Outcome State Fault Refusal := primitive (fun o => t1p o.a o.b o.c o.d) s

/-- T2 (R101): RES <- Σ0(OPA) + Maj(OPA, OPB, OPC). -/
def execT2 (s : State) : Host.Outcome State Fault Refusal := primitive (fun o => t2 o.a o.b o.c) s

end Sys2Proof.Machine
end

