-- ==== Sys2Proof/Machine/RotatorAdder.lean ====
section
/-! DEFINITION. The rotator and adder family: ROTR, SHR, ADD (41_mixing_functions.md R90 to R92). -/

namespace Sys2Proof.Machine

/-- ROTR n (R90): RES <- rotr(OPA, n). -/
def execRotr (imm : BitVec 6) (s : State) : Host.Outcome State Fault Refusal := shiftPrimitive rotr imm s

/-- SHR n (R91): RES <- OPA >>> n. -/
def execShr (imm : BitVec 6) (s : State) : Host.Outcome State Fault Refusal := shiftPrimitive shr imm s

/-- ADD (R92): RES <- (OPA + OPB) mod 2^32. -/
def execAdd (s : State) : Host.Outcome State Fault Refusal := primitive (fun o => o.a + o.b) s

end Sys2Proof.Machine
end

