-- ==== Sys2Proof/Machine/Dispatch.lean ====
section
/-! DEFINITION. The dispatch: one arm per command of 30_encoding.md R64, each one call of that command's meaning. -/

namespace Sys2Proof.Machine

/-- What a CMD write of the command's word does to the engine (R66; with BUSY = 1, R120). -/
def exec (i : Instr) (s : State) : Host.Outcome State Fault Refusal :=
  match i with
  | .nop => Sys2Proof.Machine.execNop s
  | .init => Sys2Proof.Machine.execInit s
  | .compress => Sys2Proof.Machine.execCompress s
  | .krd imm => Sys2Proof.Machine.execKrd imm s
  | .rotr imm => Sys2Proof.Machine.execRotr imm s
  | .shr imm => Sys2Proof.Machine.execShr imm s
  | .add => Sys2Proof.Machine.execAdd s
  | .ssig0 => Sys2Proof.Machine.execSsig0 s
  | .ssig1 => Sys2Proof.Machine.execSsig1 s
  | .bsig0 => Sys2Proof.Machine.execBsig0 s
  | .bsig1 => Sys2Proof.Machine.execBsig1 s
  | .ch => Sys2Proof.Machine.execCh s
  | .maj => Sys2Proof.Machine.execMaj s
  | .wstep => Sys2Proof.Machine.execWstep s
  | .t1p => Sys2Proof.Machine.execT1p s
  | .t2 => Sys2Proof.Machine.execT2 s

end Sys2Proof.Machine
end

