-- ==== Sys2Proof/Machine/Bus.lean ====
section
/-! DEFINITION. Write transactions and the host's move (20_memory.md R44 to R46, R52; 30_encoding.md R66; 60_exceptions.md
R118 to R121). -/

namespace Sys2Proof.Machine

/-- `Execute(v)` (R66): an illegal word sets ERR_CMD and nothing else (R119); a legal one is accepted. -/
def execute (v : Word) (s : State) : Host.Outcome State Fault Refusal :=
  match decode v with
  | .ok i => exec i s
  | .error _ => .next (flagErrCmd s)

/-- A write to a register that BUSY gates: with BUSY = 1 it is rejected with ERR_BUSY and lost (R120, R140). -/
def gated (write : State → Host.Outcome State Fault Refusal) (s : State) : Host.Outcome State Fault Refusal :=
  if s.busy then .next (flagErrBusy s) else write s

/-- The effect of a legal write of v on register r (R44). The BUSY check comes before decoding (R121). -/
def writeReg (r : Reg) (v : Word) (s : State) : Host.Outcome State Fault Refusal :=
  match r with
  | .id => .next s
  | .version => .next s
  | .res => .next s
  | .status => .next (writeStatus v s)
  | .cmd => gated (execute v) s
  | .opa => gated (fun s => .next { s with opa := v }) s
  | .opb => gated (fun s => .next { s with opb := v }) s
  | .opc => gated (fun s => .next { s with opc := v }) s
  | .opd => gated (fun s => .next { s with opd := v }) s
  | .m j => gated (fun s => .next { s with m := s.m.set j.val v }) s
  | .h i => gated (fun s => .next { s with h := s.h.set i.val v }) s

/-- The effect of `MemWrite(off, n, v)` on the engine (R44); a BusError changes nothing (R118). -/
def memWrite (off : BitVec 8) (n : Nat) (v : Word) (s : State) : Host.Outcome State Fault Refusal :=
  match target off n with
  | some r => writeReg r v s
  | none => .next s

/-- One event of the outside world has its whole effect (R47, R52). -/
def perform (ev : BusEvent) (s : State) : Host.Outcome State Fault Refusal :=
  match ev with
  | .read off n => .next (respond (memRead off n s) s)
  | .write off n v => memWrite off n v (respond (writeResponse off n) s)
  | .reset => .next (applyReset s)

/-- The state in which the first event of the queue is performed: it is off the queue and uses up one host turn. -/
def takeEvent (rest : List BusEvent) (s : State) : State :=
  { s with queue := rest, hostTurns := s.hostTurns - 1 }

/-- The host's move: the event that arrived first is performed, to completion (R52). -/
def hostStep (s : State) : Host.Outcome State Fault Refusal :=
  match s.queue with
  | [] => .next s
  | ev :: rest => perform ev (takeEvent rest s)

/-- One move of the whole machine: the host's, the engine's, or none (the engine is idle whenever BUSY = 0, and all state
is kept, R129). -/
def move (s : State) : Host.Outcome State Fault Refusal :=
  if hostMoves s then hostStep s
  else if s.busy then .next (engineCycle s)
  else .next s

/-- The bus write that issues a command word: `MemWrite(0x008, 4, v)` (R61). -/
def cmdWrite (v : Word) : BusEvent := .write (regOffset .cmd) 4 v

/-- The next event of the outside world becomes the CMD write of v, and it is the host's turn. -/
def withCmdWrite (v : Word) (s : State) : State :=
  { s with queue := cmdWrite v :: s.queue, hostTurns := s.hostTurns + 1 }

end Sys2Proof.Machine
end

