-- ==== Sys2Proof/Machine/Step.lean ====
section
/-! DEFINITION. The step of the machine, and where a command stands that the next step runs. SHA256CE fetches nothing
(10_state.md R18): a command comes from outside, as a bus write to CMD (30_encoding.md R61). -/

namespace Sys2Proof.Machine

/-- One step: one move of one agent (00_scope.md R13; 20_memory.md R52, R53). -/
def step (s : State) : Host.Outcome State Fault Refusal := move s

/-- `s` with the given command word as the next bus write to CMD, at the head of the host's queue, and the host's turn to
move, so that the very next step takes it. Log entry 5. -/
def State.withFetchWord (s : State) (nbits w : Nat) : State := withCmdWrite (BitVec.ofNat 32 (w % 2 ^ nbits)) s

end Sys2Proof.Machine
end

