-- ==== Sys2Proof/Machine/HostDriver.lean ====
section
/-! DEFINITION. The host driver of 45_host_framing.md (R103 to R115), software outside the engine (R5): text to bytes,
padding, packing into words, the digest procedure on one engine, and hexadecimal serialization. -/

namespace Sys2Proof.Machine

/-- The driver's errors (R117), and a run thrown away because a write was lost (R111, R115). -/
inductive DriverError where
  /-- R105: an unpaired surrogate, or a scalar that is none, at index k of the input. -/
  | encodingError (k : Nat)
  /-- R108: an input of L ≥ 2^61 bytes. -/
  | lengthError (length : Nat)
  /-- R111: ERR_BUSY or ERR_CMD was 1 after the run, so its digest is discarded; the driver then recomputes. -/
  | discarded
  deriving DecidableEq, Repr

/-! ### Text to bytes -/

/-- A UTF-16 code unit. -/
abbrev CodeUnit := BitVec 16

/-- u in 0xD800..0xDBFF (R104). -/
def isHighSurrogate (u : CodeUnit) : Bool := 0xD800 ≤ u.toNat && u.toNat ≤ 0xDBFF

/-- u in 0xDC00..0xDFFF (R104). -/
def isLowSurrogate (u : CodeUnit) : Bool := 0xDC00 ≤ u.toNat && u.toNat ≤ 0xDFFF

/-- The scalar of a surrogate pair: 0x10000 + ((hi − 0xD800) << 10) + (lo − 0xDC00) (R104). -/
def combineSurrogates (hi lo : CodeUnit) : BitVec 21 :=
  0x10000 + ((hi - 0xD800).setWidth 21 <<< 10) + (lo - 0xDC00).setWidth 21

/-- A continuation byte 10xxxxxx, from the six bits of cp at lsb. -/
def continuationByte (cp : BitVec 21) (lsb : Nat) : Byte := 0b10#2 ++ cp.extractLsb' lsb 6

/-- The UTF-8 bytes of one scalar cp: 1, 2, 3 or 4 of them (R104). -/
def utf8Scalar (cp : BitVec 21) : List Byte :=
  if cp.toNat < 0x80 then [cp.extractLsb' 0 8]
  else if cp.toNat < 0x800 then [0b110#3 ++ cp.extractLsb' 6 5, continuationByte cp 0]
  else if cp.toNat < 0x10000 then [0b1110#4 ++ cp.extractLsb' 12 4, continuationByte cp 6, continuationByte cp 0]
  else [0b11110#5 ++ cp.extractLsb' 18 3, continuationByte cp 12, continuationByte cp 6, continuationByte cp 0]

/-- `Utf8Encode` (R104) from code unit k on: a surrogate pair gives one scalar, an unpaired surrogate fails (R105). -/
def utf8UnitsFrom (k : Nat) (units : List CodeUnit) : Except DriverError (List Byte) :=
  match units with
  | [] => .ok []
  | u :: rest =>
    if isHighSurrogate u then
      match rest with
      | [] => .error (.encodingError k)
      | v :: rest' =>
        if isLowSurrogate v then
          (utf8UnitsFrom (k + 2) rest').map (utf8Scalar (combineSurrogates u v) ++ ·)
        else .error (.encodingError k)
    else if isLowSurrogate u then .error (.encodingError k)
    else (utf8UnitsFrom (k + 1) rest).map (utf8Scalar (u.setWidth 21) ++ ·)

/-- `Utf8Encode` of a sequence of UTF-16 code units (R104). -/
def utf8Units (units : List CodeUnit) : Except DriverError (List Byte) := utf8UnitsFrom 0 units

/-- A Unicode scalar value: at most 0x10FFFF and no surrogate (R105). -/
def isScalar (cp : Nat) : Bool := cp ≤ 0x10FFFF && !(0xD800 ≤ cp && cp ≤ 0xDFFF)

/-- `Utf8Encode` of scalar input from index k on (R104, R105). -/
def utf8ScalarsFrom (k : Nat) : List Nat → Except DriverError (List Byte)
  | [] => .ok []
  | cp :: rest =>
    if isScalar cp then (utf8ScalarsFrom (k + 1) rest).map (utf8Scalar (BitVec.ofNat 21 cp) ++ ·)
    else .error (.encodingError k)

/-- `Utf8Encode` of a sequence of scalars (R104). -/
def utf8Scalars (scalars : List Nat) : Except DriverError (List Byte) := utf8ScalarsFrom 0 scalars

/-! ### Padding and packing -/

/-- `BE64(B)` (R107): byte t is B[63−8t : 56−8t]. -/
def be64 (b : BitVec 64) : List Byte :=
  [b.extractLsb' 56 8, b.extractLsb' 48 8, b.extractLsb' 40 8, b.extractLsb' 32 8,
   b.extractLsb' 24 8, b.extractLsb' 16 8, b.extractLsb' 8 8, b.extractLsb' 0 8]

/-- N, the number of blocks of an input of L bytes (R106). -/
def blockCount (length : Nat) : Nat := (length + 8) / 64 + 1

/-- The padded buffer P of R106, of an input whose bit length fits. -/
def padded (bytes : List Byte) : List Byte :=
  bytes ++ 0x80 :: List.replicate (64 * blockCount bytes.length - bytes.length - 9) 0 ++
    be64 (BitVec.ofNat 64 (8 * bytes.length))

/-- `Pad(bytes)` (R106), with the length limit of R108: L ≤ 2^61 − 1. -/
def pad (bytes : List Byte) : Except DriverError (List Byte) :=
  if bytes.length < 2 ^ 61 then .ok (padded bytes) else .error (.lengthError bytes.length)

/-- The big-endian word of four bytes (R110). -/
def packWord (b0 b1 b2 b3 : Byte) : Word :=
  (b0.setWidth 32 <<< 24) ||| (b1.setWidth 32 <<< 16) ||| (b2.setWidth 32 <<< 8) ||| b3.setWidth 32

/-- Byte i of a block; the driver asks only for bytes its blocks have. -/
def byteAt (bytes : List Byte) (i : Nat) : Byte := bytes.getD i 0

/-- The 16 words of a 64-byte block: word t from its bytes 4t to 4t+3 (R110). -/
def packBlock (bytes : List Byte) : Vector Word 16 :=
  Vector.ofFn (fun t =>
    packWord (byteAt bytes (4 * t.val)) (byteAt bytes (4 * t.val + 1)) (byteAt bytes (4 * t.val + 2))
      (byteAt bytes (4 * t.val + 3)))

/-- The first n blocks of a buffer, block j being bytes 64j to 64j+63 (R109), packed (R110). -/
def packBlocks (bytes : List Byte) : Nat → List (Vector Word 16)
  | 0 => []
  | n + 1 => packBlock (bytes.take 64) :: packBlocks (bytes.drop 64) n

/-- The blocks of an input, in message order: its padded buffer cut and packed (R106, R109, R110). -/
def messageBlocks (bytes : List Byte) : List (Vector Word 16) := packBlocks (padded bytes) (blockCount bytes.length)

/-- The chaining state after all blocks, from IV: state carries forward in message order (R84, R111). -/
def digestWords (bytes : List Byte) : Vector Word 8 := (messageBlocks bytes).foldl compress IV

/-! ### Serialization -/

/-- A nibble as one of the characters 0123456789abcdef (R112). -/
def hexDigit (n : BitVec 4) : Char :=
  if n.toNat < 10 then Char.ofNat (0x30 + n.toNat) else Char.ofNat (0x61 + (n.toNat - 10))

/-- `hex8(w)` (R112): the nibbles w[31:28], w[27:24], ..., w[3:0] in that order. -/
def hex8 (w : Word) : List Char :=
  [hexDigit (w.extractLsb' 28 4), hexDigit (w.extractLsb' 24 4), hexDigit (w.extractLsb' 20 4),
   hexDigit (w.extractLsb' 16 4), hexDigit (w.extractLsb' 12 4), hexDigit (w.extractLsb' 8 4),
   hexDigit (w.extractLsb' 4 4), hexDigit (w.extractLsb' 0 4)]

/-- `Serialize(h[0..7])` (R112), as a list of characters. -/
def serialize (h : Vector Word 8) : List Char := h.toList.flatMap hex8

/-! ### The digest procedure on one engine -/

/-- An engine on its bus, with what else will arrive there while the driver works (R58: several bus masters interleave in
an arbitrary order): the events that come before the driver's next transaction, before the one after it, and so on; nothing
once the list is used up. An input of the outside world, log entry 11. -/
structure SharedEngine where
  engine : State
  others : List (List BusEvent)
  deriving DecidableEq, Repr

/-- Going on after a step that answered a next state. -/
def andThen {α β : Type} (o : Host.Outcome α Fault Refusal) (f : α → Host.Outcome β Fault Refusal) :
    Host.Outcome β Fault Refusal :=
  match o with
  | .next a => f a
  | .fault r => .fault r
  | .refused r => .refused r

/-- Runs steps until the host's queue is empty, at most fuel of them. -/
def drain : Nat → State → Host.Outcome State Fault Refusal
  | 0, s => .next s
  | fuel + 1, s => if s.queue.isEmpty then .next s else andThen (step s) (drain fuel)

/-- How many steps it can take at most until everything in the queue has been performed: the cycles of the pending
COMPRESS, and for every event its own step and the cycles of a COMPRESS that it may start. -/
def drainBound (s : State) : Nat := s.cyclesLeft + s.queue.length * (Config.latCompress + 2) + 2

/-- The host issues one transaction, behind what arrived before it, and waits until it has been performed (R52). -/
def issue (ev : BusEvent) (b : SharedEngine) : Host.Outcome SharedEngine Fault Refusal :=
  let s := { b.engine with queue := b.engine.queue ++ (b.others.headD [] ++ [ev]) }
  andThen (drain (drainBound s) s) (fun t => .next { engine := t, others := b.others.tail })

/-- The data of the last read. Its other arm is not reached: a read of a register always answers with data. -/
def lastData (s : State) : Word :=
  match s.responses with
  | .data v :: _ => v
  | _ => 0

/-- `wr <REG>, <value>` (R69). -/
def wr (r : Reg) (v : Word) (b : SharedEngine) : Host.Outcome SharedEngine Fault Refusal :=
  issue (.write (regOffset r) 4 v) b

/-- `rd <REG>` (R69); the value is `lastData` of the engine afterwards. -/
def rd (r : Reg) (b : SharedEngine) : Host.Outcome SharedEngine Fault Refusal := issue (.read (regOffset r) 4) b

/-- A bare command mnemonic (R69): `wr CMD, <command word>`. -/
def cmd (i : Instr) (b : SharedEngine) : Host.Outcome SharedEngine Fault Refusal := wr .cmd (encode i) b

/-- The host turns that Config's free values leave before the next k engine cycles. -/
def turnsAhead : Nat → Nat → Nat
  | 0, _ => 0
  | k + 1, c => Config.hostTurns c + turnsAhead k (c + 1)

/-- How many STATUS reads it may take, with nobody else on the bus, before one of them finds BUSY = 0. R71 gives the loop
of `poll` no bound ("any number of reads"); this one is the model's, taken from the state, so that the loop is a total
function. DESIGN CHOICE, log entry 11. -/
def pollBound (s : State) : Nat := s.hostTurns + turnsAhead s.cyclesLeft s.freeCtr + 1

/-- The loop of `poll`, for at most fuel reads; then `atEnd`. -/
def pollLoop (atEnd : SharedEngine → Host.Outcome SharedEngine Fault Refusal) :
    Nat → SharedEngine → Host.Outcome SharedEngine Fault Refusal
  | 0, b => atEnd b
  | fuel + 1, b =>
    andThen (rd .status b) (fun t => if (lastData t.engine).getLsbD 0 then pollLoop atEnd fuel t else .next t)

/-- `poll` (R71): "repeat rd STATUS until bit 0 (BUSY) of the value read is 0". One read more than there are arrivals of
other masters uses those up; from then on the driver is alone, and `pollBound` reads are enough. -/
def poll (b : SharedEngine) : Host.Outcome SharedEngine Fault Refusal :=
  pollLoop (fun t => pollLoop .next (pollBound t.engine) t) (b.others.length + 1) b

/-- `wr M[t], word(t)` for the words at t and above, in order. -/
def writeWords (words : List Word) (t : Nat) (b : SharedEngine) : Host.Outcome SharedEngine Fault Refusal :=
  match words with
  | [] => .next b
  | v :: rest => if ht : t < 16 then andThen (wr (.m ⟨t, ht⟩) v b) (writeWords rest (t + 1)) else .next b

/-- `block <w0>, ..., <w15>` (R71). -/
def writeBlock (block : Vector Word 16) (b : SharedEngine) : Host.Outcome SharedEngine Fault Refusal :=
  writeWords block.toList 0 b

/-- One turn of R111's loop: the block into M, COMPRESS, then poll. -/
def digestBlock (block : Vector Word 16) (b : SharedEngine) : Host.Outcome SharedEngine Fault Refusal :=
  andThen (writeBlock block b) (fun b => andThen (cmd .compress b) poll)

/-- R111's loop over the blocks, in increasing order. -/
def digestBlocks (blocks : List (Vector Word 16)) (b : SharedEngine) : Host.Outcome SharedEngine Fault Refusal :=
  match blocks with
  | [] => .next b
  | block :: rest => andThen (digestBlock block b) (digestBlocks rest)

/-- `digest_out` (R71), the words read from H[i], ..., H[7]: n of them from i = 8 − n on. -/
def readWords (n : Nat) (acc : List Word) (b : SharedEngine) :
    Host.Outcome (List Word × SharedEngine) Fault Refusal :=
  match n with
  | 0 => .next (acc, b)
  | n + 1 =>
    if hi : 8 - (n + 1) < 8 then
      andThen (rd (.h ⟨8 - (n + 1), hi⟩) b) (fun t => readWords n (acc ++ [lastData t.engine]) t)
    else .next (acc, b)

/-- `clear` (R71): `wr STATUS, 0x0000000E`. -/
def clearStatus (b : SharedEngine) : Host.Outcome SharedEngine Fault Refusal := wr .status 0x0000000E b

/-- A run of `Digest` (R111) from its INIT on: the blocks in order, read H[0..7], serialize. The driver checks ERR_BUSY
and ERR_CMD after the run; if either is 1 a write was lost and the run's digest is discarded (R111, R115). -/
def digestFromInit (blocks : List (Vector Word 16)) (b : SharedEngine) :
    Host.Outcome (Except DriverError (List Char) × SharedEngine) Fault Refusal :=
  andThen (digestBlocks blocks b) fun b =>
  andThen (readWords 8 [] b) fun (words, b) =>
  andThen (rd .status b) fun b =>
  if (lastData b.engine).getLsbD 2 || (lastData b.engine).getLsbD 3 then .next (.error .discarded, b)
  else .next (.ok (words.flatMap hex8), b)

/-- One run of `Digest` (R111) over the blocks of a message on one engine: poll, INIT, and the rest. The driver clears
STATUS first, because it checks the error bits afterwards (R134 (3), log entry 11). -/
def digestRun (blocks : List (Vector Word 16)) (b : SharedEngine) :
    Host.Outcome (Except DriverError (List Char) × SharedEngine) Fault Refusal :=
  andThen (clearStatus b) fun b =>
  andThen (poll b) fun b =>
  andThen (cmd .init b) (digestFromInit blocks)

/-- Runs of the procedure until one is not discarded, at most the given number: "the digest must be discarded and
recomputed" (R111). -/
def recompute (blocks : List (Vector Word 16)) :
    Nat → SharedEngine → Host.Outcome (Except DriverError (List Char) × SharedEngine) Fault Refusal
  | 0, b => .next (.error .discarded, b)
  | attempts + 1, b =>
    andThen (digestRun blocks b) fun (r, b) =>
    if r = .error .discarded then recompute blocks attempts b else .next (r, b)

/-- `Digest` (R111) of a byte buffer on one engine. A run is recomputed as often as it is discarded: every run uses up an
arrival of the other masters while there is one, and a run that the driver makes alone loses no write. -/
def digestBytes (bytes : List Byte) (b : SharedEngine) :
    Host.Outcome (Except DriverError (List Char) × SharedEngine) Fault Refusal :=
  match pad bytes with
  | .error e => .next (.error e, b)
  | .ok _ => recompute (messageBlocks bytes) (b.others.length + 1) b

/-- An input of the driver (R103, R104): bytes, or text as UTF-16 code units or as scalars. -/
inductive Input where
  | bytes (b : List Byte)
  | units (u : List CodeUnit)
  | scalars (u : List Nat)
  deriving DecidableEq, Repr

/-- The bytes of an input (R111: "bytes <- input if bytes else Utf8Encode(input)"). -/
def Input.toBytes : Input → Except DriverError (List Byte)
  | .bytes b => .ok b
  | .units u => utf8Units u
  | .scalars u => utf8Scalars u

/-- `digest(input)` (R103, R111) on one engine. Input that fails to encode leaves the engine untouched (R105). -/
def digest (input : Input) (b : SharedEngine) :
    Host.Outcome (Except DriverError (List Char) × SharedEngine) Fault Refusal :=
  match input.toBytes with
  | .error e => .next (.error e, b)
  | .ok bytes => digestBytes bytes b

end Sys2Proof.Machine
end

