-- ==== Sys2Proof/Machine/HostNotation.lean ====
section
/-! DEFINITION. The host-program notation (30_encoding.md R69 to R71): statements, the pseudo-instructions' expansion into
transactions, running a program on one engine, and a reader of its lines from text. -/

namespace Sys2Proof.Machine

/-- One statement of a host program. -/
inductive Stmt where
  /-- `wr <REG>, <value>`. -/
  | wr (r : Reg) (v : Word)
  /-- `rd <REG>`, or `rd <REG> -> <value>`, which "also states the value the rules give". -/
  | rd (r : Reg) (expected : Option Word)
  /-- A bare command mnemonic. -/
  | command (i : Instr)
  /-- `poll`. -/
  | poll
  deriving DecidableEq, Repr

/-- `ROTL <n>`, n in 0..31, is `ROTR <(32 − n) mod 32>` (R71). -/
def rotl (n : Fin 32) : Stmt := .command (.rotr (BitVec.ofNat 6 ((32 - n.val) % 32)))

/-- `ops <a>, <b>, <c>, <d>`; "fewer operands write only the first registers" (R71). -/
def ops (vs : List Word) : List Stmt := List.zipWith Stmt.wr [.opa, .opb, .opc, .opd] vs

/-- `block <w0>, ..., <w15>` (R71). -/
def blockStmts (b : Vector Word 16) : List Stmt := List.ofFn (fun j : Fin 16 => Stmt.wr (.m j) b[j.val])

/-- `digest_out` (R71). -/
def digestOut : List Stmt := List.ofFn (fun i : Fin 8 => Stmt.rd (.h i) none)

/-- `clear` (R71): clears DONE, ERR_BUSY and ERR_CMD. -/
def clear : Stmt := .wr .status 0x0000000E

/-- One statement on one engine (R69, R71). -/
def runStmt (st : Stmt) (b : SharedEngine) : Host.Outcome SharedEngine Fault Refusal :=
  match st with
  | .wr r v => wr r v b
  | .rd r _ => rd r b
  | .command i => cmd i b
  | .poll => poll b

/-- A host program: its statements one after the other. -/
def runProgram (p : List Stmt) (b : SharedEngine) : Host.Outcome SharedEngine Fault Refusal :=
  match p with
  | [] => .next b
  | st :: rest => andThen (runStmt st b) (runProgram rest)

/-! ### Reading a line -/

/-- What is wrong with a line: an operand out of range (R70: "an assembly error: it must not be silently masked"), or no
statement of R69 to R71. -/
inductive LineError where
  | outOfRange
  | unknown
  deriving DecidableEq, Repr

/-- `;` starts a comment that runs to the end of the line (R69). -/
def dropComment (line : List Char) : List Char := line.takeWhile (· != ';')

/-- The words and commas of a line, in order; spaces separate, and a comma is a token of its own. DESIGN CHOICE, log
entry 12. -/
def tokensFrom (word : List Char) : List Char → List (List Char)
  | [] => if word.isEmpty then [] else [word.reverse]
  | c :: rest =>
    let flush := if word.isEmpty then [] else [word.reverse]
    if c = ' ' then flush ++ tokensFrom [] rest
    else if c = ',' then flush ++ [','] :: tokensFrom [] rest
    else tokensFrom (c :: word) rest

/-- The value of a digit in base 16. -/
def digitValue (c : Char) : Option Nat :=
  if '0' ≤ c ∧ c ≤ '9' then some (c.toNat - '0'.toNat)
  else if 'a' ≤ c ∧ c ≤ 'f' then some (c.toNat - 'a'.toNat + 10)
  else if 'A' ≤ c ∧ c ≤ 'F' then some (c.toNat - 'A'.toNat + 10)
  else none

/-- The digits after acc, most significant first, each below the base. -/
def digitsFrom (base acc : Nat) : List Char → Option Nat
  | [] => some acc
  | c :: rest =>
    match digitValue c with
    | some d => if d < base then digitsFrom base (base * acc + d) rest else none
    | none => none

/-- A decimal integer, or `0x` and hexadecimal digits (R8, R70). -/
def number (tok : List Char) : Option Nat :=
  match tok with
  | [] => none
  | '0' :: 'x' :: [] => none
  | '0' :: 'x' :: rest => digitsFrom 16 0 rest
  | tok => digitsFrom 10 0 tok

/-- A number below the bound, as an operand. -/
def operandBelow (bound : Nat) (tok : List Char) : Except LineError (Fin bound) :=
  match number tok with
  | some n => if h : n < bound then .ok ⟨n, h⟩ else .error .outOfRange
  | none => .error .unknown

/-- A 32-bit value. -/
def wordOperand (tok : List Char) : Except LineError Word := (operandBelow (2 ^ 32) tok).map BitVec.ofFin

/-- The register names without an index (R39). -/
def plainRegs : List (List Char × Reg) :=
  [(['I', 'D'], .id), (['V', 'E', 'R', 'S', 'I', 'O', 'N'], .version), (['C', 'M', 'D'], .cmd),
   (['S', 'T', 'A', 'T', 'U', 'S'], .status), (['O', 'P', 'A'], .opa), (['O', 'P', 'B'], .opb),
   (['O', 'P', 'C'], .opc), (['O', 'P', 'D'], .opd), (['R', 'E', 'S'], .res)]

/-- A register name of R39: a plain name, `M[j]` or `H[i]`. -/
def register (tok : List Char) : Except LineError Reg :=
  match tok with
  | 'M' :: '[' :: rest =>
    if rest.getLast? = some ']' then (operandBelow 16 rest.dropLast).map Reg.m else .error .unknown
  | 'H' :: '[' :: rest =>
    if rest.getLast? = some ']' then (operandBelow 8 rest.dropLast).map Reg.h else .error .unknown
  | tok =>
    match plainRegs.lookup tok with
    | some r => .ok r
    | none => .error .unknown

/-- The command mnemonics without an operand (R70). -/
def plainCommands : List (List Char × Instr) :=
  [(['N', 'O', 'P'], .nop), (['I', 'N', 'I', 'T'], .init), (['C', 'O', 'M', 'P', 'R', 'E', 'S', 'S'], .compress),
   (['A', 'D', 'D'], .add), (['S', 'S', 'I', 'G', '0'], .ssig0), (['S', 'S', 'I', 'G', '1'], .ssig1),
   (['B', 'S', 'I', 'G', '0'], .bsig0), (['B', 'S', 'I', 'G', '1'], .bsig1), (['C', 'H'], .ch),
   (['M', 'A', 'J'], .maj), (['W', 'S', 'T', 'E', 'P'], .wstep), (['T', '1', 'P'], .t1p), (['T', '2'], .t2)]

/-- The numbers of a comma-separated operand list. -/
def wordList (toks : List (List Char)) : Except LineError (List Word) :=
  match toks with
  | [] => .error .unknown
  | [tok] => (wordOperand tok).map ([·])
  | tok :: [','] :: rest => do return (← wordOperand tok) :: (← wordList rest)
  | _ :: _ :: _ => .error .unknown

/-- A command or a pseudo-instruction by its name and operand tokens (R70, R71). -/
def namedStmts (name : List Char) (args : List (List Char)) : Except LineError (List Stmt) :=
  match args with
  | [] =>
    if name = ['p', 'o', 'l', 'l'] then .ok [.poll]
    else if name = ['c', 'l', 'e', 'a', 'r'] then .ok [clear]
    else if name = ['d', 'i', 'g', 'e', 's', 't', '_', 'o', 'u', 't'] then .ok digestOut
    else
      match plainCommands.lookup name with
      | some i => .ok [.command i]
      | none => .error .unknown
  | _ :: _ =>
    if name = ['o', 'p', 's'] then do
      let vs ← wordList args
      if vs.length ≤ 4 then return ops vs else .error .unknown
    else if name = ['b', 'l', 'o', 'c', 'k'] then do
      let vs ← wordList args
      if h : vs.length = 16 then return blockStmts ⟨vs.toArray, by simp [h]⟩ else .error .unknown
    else
      match args with
      | [arg] =>
        if name = ['K', 'R', 'D'] then (operandBelow 64 arg).map (fun n => [.command (.krd (BitVec.ofNat 6 n.val))])
        else if name = ['R', 'O', 'T', 'R'] then
          (operandBelow 32 arg).map (fun n => [.command (.rotr (BitVec.ofNat 6 n.val))])
        else if name = ['S', 'H', 'R'] then
          (operandBelow 32 arg).map (fun n => [.command (.shr (BitVec.ofNat 6 n.val))])
        else if name = ['R', 'O', 'T', 'L'] then (operandBelow 32 arg).map (fun n => [rotl n])
        else .error .unknown
      | _ => .error .unknown

/-- The statements of one line (R69 to R71); an empty line, or one with only a comment, has none. DESIGN CHOICE, log entry
12: it reads R69's words only ("one statement per line", a register name, one value after `->`), so a block over two lines,
a read by offset and alternatives after `->`, which 95_test_vectors.md uses, are `unknown` here. -/
def readLine (line : List Char) : Except LineError (List Stmt) :=
  match tokensFrom [] (dropComment line) with
  | [] => .ok []
  | name :: args =>
    if name = ['w', 'r'] then
      match args with
      | [reg, [','], v] => do return [.wr (← register reg) (← wordOperand v)]
      | _ => .error .unknown
    else if name = ['r', 'd'] then
      match args with
      | [reg] => do return [.rd (← register reg) none]
      | [reg, ['-', '>'], v] => do return [.rd (← register reg) (some (← wordOperand v))]
      | _ => .error .unknown
    else namedStmts name args

end Sys2Proof.Machine
end

