-- ==== Sys2Proof/Machine/Platform.lean ====
section
/-! DEFINITION. A platform of several engines, each at its own ENGINE_BASE (00_scope.md R7; 20_memory.md R38, R40, R49, R58;
60_exceptions.md R130). N_ENGINES is the length of the list; both parameters are arguments, as R7 asks. -/

namespace Sys2Proof.Machine

/-- One engine and the byte address of its register window. -/
structure EngineAt where
  base : Nat
  engine : State
  deriving DecidableEq, Repr

/-- The engines of a system (R130). -/
abbrev Platform := List EngineAt

/-- R7 and R49: at least one engine, each ENGINE_BASE a multiple of 0x100, and no two engines at one address
(DEDUCED, log entry 13). -/
abbrev Platform.wf (p : Platform) : Prop :=
  p ≠ [] ∧ (∀ e ∈ p, e.base % 0x100 = 0) ∧ (p.map (·.base)).Nodup

/-- The window offset of a bus address, none outside the 0x100-byte window (R38, R40). -/
def windowOffset (base addr : Nat) : Option (BitVec 8) :=
  if base ≤ addr ∧ addr < base + 0x100 then some (BitVec.ofNat 8 (addr - base)) else none

/-- What a bus master asks at an address: a read, or a write of a value, of n bytes. -/
inductive Access where
  | read (n : Nat)
  | write (n : Nat) (v : Word)
  deriving DecidableEq, Repr

/-- The transaction an access is at an offset of a window. -/
def Access.at (a : Access) (off : BitVec 8) : BusEvent :=
  match a with
  | .read n => .read off n
  | .write n v => .write off n v

/-- An access at a bus address arrives at the engine whose window holds the address, behind what arrived before (R52); an
engine whose window does not hold it does not see it (R40). -/
def EngineAt.arrive (addr : Nat) (a : Access) (e : EngineAt) : EngineAt :=
  match windowOffset e.base addr with
  | some off => { e with engine := { e.engine with queue := e.engine.queue ++ [a.at off] } }
  | none => e

/-- An access on the platform's bus. -/
def Platform.arrive (addr : Nat) (a : Access) (p : Platform) : Platform := p.map (EngineAt.arrive addr a)

/-- Engine k of the platform takes one step; none where it stops or there is no engine k. -/
def Platform.stepAt (k : Nat) (p : Platform) : Option Platform :=
  match p[k]? with
  | some e =>
    match step e.engine with
    | .next s => some (p.set k { e with engine := s })
    | .fault _ => none
    | .refused _ => none
  | none => none

end Sys2Proof.Machine
end

