-- ==== Sys2Proof/Safety.lean ====
section
/-! DEFINITION. What claims about the machine are stated in: whose turn it is, what no bus transaction can tell apart
(10_state.md R35), runs, the sequencer's and the engine's invariants, and a clean run (45_host_framing.md R115). -/

namespace Sys2Proof.Machine

/-! ### Whose turn it is -/

/-- The host moves next, with event ev: it arrived first, and no engine cycle comes before it. -/
abbrev HostTurn (s : State) (ev : BusEvent) (rest : List BusEvent) : Prop :=
  s.queue = ev :: rest ∧ (s.busy = true → s.hostTurns ≠ 0)

/-- The engine moves next: a COMPRESS is pending, and the host is done or has no turn before the next cycle. -/
abbrev EngineTurn (s : State) : Prop := s.busy = true ∧ (s.queue = [] ∨ s.hostTurns = 0)

/-- Nobody has anything to do (R129: idle whenever BUSY = 0). -/
abbrev IdleTurn (s : State) : Prop := s.busy = false ∧ s.queue = []

/-- The bus write that issues command word v is next. -/
abbrev CmdTurn (s : State) (v : Word) (rest : List BusEvent) : Prop := HostTurn s (.write (regOffset .cmd) 4 v) rest

/-! ### What a step may leave alone -/

/-- t is s but for what stands on the bus: every register, every STATUS bit and the hidden state are the same. -/
abbrev SameEngine (s t : State) : Prop :=
  t = { s with queue := t.queue, responses := t.responses, hostTurns := t.hostTurns }

/-- t is s but for hidden state (R33, R34: W, a..h, the round index, the phase). -/
abbrev SameVisible (s t : State) : Prop := t = { s with seq := t.seq }

/-- t is s but for STATUS.ERR_BUSY, STATUS.ERR_CMD and what the bus has answered. -/
abbrev SameButErrors (s t : State) : Prop :=
  t = { s with errBusy := t.errBusy, errCmd := t.errCmd, responses := t.responses }

/-! ### The register window -/

/-- R40's reserved ranges, 0x024 to 0x03F and 0x0A0 to 0x0FF. -/
abbrev ReservedOffset (off : BitVec 8) : Prop :=
  (0x24 ≤ off.toNat ∧ off.toNat ≤ 0x3F) ∨ (0xA0 ≤ off.toNat ∧ off.toNat ≤ 0xFF)

/-- The registers whose writes BUSY gates: CMD, OPA to OPD, M and H (R120). -/
def Reg.gatedByBusy : Reg → Bool
  | .cmd | .opa | .opb | .opc | .opd | .m _ | .h _ => true
  | .id | .version | .status | .res => false

/-- The registers a host write stores into: OPA to OPD, M and H (R44). -/
def Reg.stores : Reg → Bool
  | .opa | .opb | .opc | .opd | .m _ | .h _ => true
  | .id | .version | .cmd | .status | .res => false

/-! ### Commands -/

/-- The commands that write RES: KRD (R85) and the primitive commands (R89). -/
def writesRes : Instr → Bool
  | .nop | .init | .compress => false
  | .krd _ | .rotr _ | .shr _ | .add | .ssig0 | .ssig1 | .bsig0 | .bsig1 | .ch | .maj | .wstep | .t1p | .t2 => true

/-- Command word w is instruction i, and with BUSY = 0 it writes f of the state to RES and changes nothing else
(the template of R89, for KRD too). -/
def WritesResult (i : Instr) (w : Word) (f : State → Word) : Prop :=
  decode w = .ok i ∧ encode i = w ∧ ∀ s : State, s.busy = false → exec i s = .next { s with res := f s }

/-- With BUSY = 0 and the operands of `s`, instruction i gives RES = v: the form of a rule's corner cases and examples. -/
def GivesRes (i : Instr) (s : State) (v : Word) : Prop := ∃ t, exec i s = .next t ∧ t.res = v

/-- The engine after reset with values in OPA to OPD. -/
def withOperands (a b c d : Word) : State := { State.reset with opa := a, opb := b, opc := c, opd := d }

/-! ### Runs -/

/-- t is reached from s in exactly k steps. -/
def stepsTo : Nat → State → State → Prop
  | 0, s, t => t = s
  | k + 1, s, t => ∃ u, step s = .next u ∧ stepsTo k u t

/-- n hidden micro-steps of the sequencer on a fixed M and H. -/
def ticks (m : Vector Word 16) (h : Vector Word 8) : Nat → Sequencer → Sequencer
  | 0, q => q
  | n + 1, q => ticks m h n (tick m h q)

/-! ### Invariants -/

/-- What the hidden state holds at each point of a pending compression (R33, R34, R78 to R80): a prefix of the schedule of
M, then the working variables after the rounds so far, seeded from H. -/
def SequencerInv (m : Vector Word 16) (h : Vector Word 8) (q : Sequencer) : Prop :=
  match q.phase with
  | .idle => True
  | .schedule => ∀ i : Fin 64, i.val < q.round.val → q.w[i.val] = (expand m)[i.val]
  | .rounds => q.w = expand m ∧ q.vars = roundsUpTo (expand m) (seed h) q.round.val
  | .feedForward => q.w = expand m ∧ q.vars = roundsUpTo (expand m) (seed h) 64

/-- The invariant of an engine: BUSY = 1 exactly while the sequencer is not idle (R18, R129), a pending COMPRESS has
DONE = 0 (R26) and cycles left (the model's count, log entry 1), and the hidden state is a prefix of the compression of M
into H (the model's order of micro-steps, log entry 6). -/
structure EngineInv (s : State) : Prop where
  busy_iff : s.busy = true ↔ s.seq.phase ≠ .idle
  done_clear : s.busy = true → s.done = false
  cycles_pos : s.busy = true → 1 ≤ s.cyclesLeft
  sequencer : SequencerInv s.m s.h s.seq

/-! ### The driver among other masters -/

/-- Only reads, of any offset and width: what R115 lets anyone do at any time. -/
abbrev OnlyReads (evs : List BusEvent) : Prop := ∀ ev ∈ evs, ∃ off n, ev = BusEvent.read off n

/-- A clean STATUS: no write was lost and no command word was illegal (R111, R115). -/
abbrev Clean (s : State) : Prop := s.errBusy = false ∧ s.errCmd = false

end Sys2Proof.Machine
end

