-- ==== Sys2Proof/Certificates/Slice0/Obligations.lean ====
section
/-! DEFINITION. The statements about the machine, for the provers. Each docstring names the rules of spec/ it formalises.
`HostTurn`, `EngineTurn` and `IdleTurn` (Safety.lean) say whose move is next; `SameEngine` says that every register, every
STATUS bit and the hidden state are unchanged. -/

open Sys2Proof Sys2Proof.Machine

/-! ## Reset and constants -/

/-- R36: the value of every piece of state after reset that the table gives one, with the constants K and IV at their
first and last entries (all of K and IV: `RomsHoldTheRootsOfThePrimes`). W, a..h and the round index are unspecified
there, and nothing is said of them. -/
def Obligations.ResetLeavesTheSpecValues : Prop :=
  readReg .id State.reset = 0x53323536 ∧ readReg .version State.reset = 0x00000001 ∧
  readReg .cmd State.reset = 0x00000000 ∧ readReg .status State.reset = 0x00000000 ∧
  State.reset.busy = false ∧ State.reset.done = false ∧ State.reset.errBusy = false ∧ State.reset.errCmd = false ∧
  State.reset.opa = 0 ∧ State.reset.opb = 0 ∧ State.reset.opc = 0 ∧ State.reset.opd = 0 ∧ State.reset.res = 0 ∧
  (∀ j : Fin 16, State.reset.m[j.val] = 0) ∧ (∀ i : Fin 8, State.reset.h[i.val] = IV[i.val]) ∧
  State.reset.seq.phase = .idle ∧
  K[0] = 0x428A2F98 ∧ K[63] = 0xC67178F2 ∧ IV[0] = 0x6A09E667 ∧ IV[7] = 0x5BE0CD19

/-- R31 and R32's exact-integer checks, which the spec marks as general knowledge: K[i] is floor(cbrt(p_i · 2^96)) mod 2^32
over the first 64 primes, IV[i] is floor(sqrt(p_i · 2^64)) mod 2^32 over the first eight. -/
def Obligations.RomsHoldTheRootsOfThePrimes : Prop :=
  ∃ p : List Nat, p.length = 64 ∧ p.Pairwise (· < ·) ∧ (∀ q, q ∈ p ↔ q.Prime ∧ q ≤ 311) ∧
    (∀ i : Fin 64, ∃ c : Nat, c ^ 3 ≤ p.getD i.val 0 * 2 ^ 96 ∧ p.getD i.val 0 * 2 ^ 96 < (c + 1) ^ 3 ∧
      K[i.val] = BitVec.ofNat 32 c) ∧
    (∀ i : Fin 8, ∃ c : Nat, c ^ 2 ≤ p.getD i.val 0 * 2 ^ 64 ∧ p.getD i.val 0 * 2 ^ 64 < (c + 1) ^ 2 ∧
      IV[i.val] = BitVec.ofNat 32 c)

/-- R131: the reset event, from any state at all, BUSY or not, sets every piece of state to the value of R36. -/
def Obligations.ResetEventRestoresResetValues : Prop :=
  ∀ (s : State) (rest : List BusEvent), HostTurn s .reset rest →
    ∃ t, step s = .next t ∧ t.h = IV ∧ (∀ j : Fin 16, t.m[j.val] = 0) ∧
      t.opa = 0 ∧ t.opb = 0 ∧ t.opc = 0 ∧ t.opd = 0 ∧ t.res = 0 ∧
      t.busy = false ∧ t.done = false ∧ t.errBusy = false ∧ t.errCmd = false ∧ t.seq.phase = .idle ∧
      ∀ r, readReg r t = readReg r State.reset

/-- R132: a reset while BUSY = 1 abandons the pending COMPRESS. However long the machine runs on while the host only reads,
its completion never happens: H stays IV and DONE stays 0. -/
def Obligations.ResetAbandonsPendingCompress : Prop :=
  ∀ (s t : State) (rest : List BusEvent), HostTurn s .reset rest → s.busy = true → step s = .next t →
    t.h = IV ∧ t.busy = false ∧ t.done = false ∧
    ((∀ ev ∈ rest, ∃ off n, ev = BusEvent.read off n) →
      ∀ (k : Nat) (u : State), stepsTo k t u → u.h = IV ∧ u.busy = false ∧ u.done = false)

/-! ## The register window -/

/-- R39 and R40: the offset of every register, and that a 4-byte access reaches a register exactly at that register's
offset, and none in a reserved range. -/
def Obligations.WindowMapsEachRegisterOnce : Prop :=
  (regOffset .id).toNat = 0x000 ∧ (regOffset .version).toNat = 0x004 ∧ (regOffset .cmd).toNat = 0x008 ∧
  (regOffset .status).toNat = 0x00C ∧ (regOffset .opa).toNat = 0x010 ∧ (regOffset .opb).toNat = 0x014 ∧
  (regOffset .opc).toNat = 0x018 ∧ (regOffset .opd).toNat = 0x01C ∧ (regOffset .res).toNat = 0x020 ∧
  (∀ j : Fin 16, (regOffset (.m j)).toNat = 0x040 + 4 * j.val) ∧
  (∀ i : Fin 8, (regOffset (.h i)).toNat = 0x080 + 4 * i.val) ∧
  (∀ (off : BitVec 8) (r : Reg), target off 4 = some r ↔ off = regOffset r) ∧
  (∀ (off : BitVec 8) (n : Nat), ReservedOffset off → target off n = none)

/-- R118: a transaction of a width other than 4, at an offset that is no multiple of 4, or in a reserved range, completes
with an error response; a read returns no data, and no state of the engine changes. It is so whether BUSY is 0 or 1. -/
def Obligations.BusErrorChangesNothing : Prop :=
  ∀ (s : State) (off : BitVec 8) (n : Nat) (v : Word) (rest : List BusEvent),
    n ≠ 4 ∨ off.toNat % 4 ≠ 0 ∨ ReservedOffset off →
    HostTurn s (.read off n) rest ∨ HostTurn s (.write off n v) rest →
    ∃ t, step s = .next t ∧ SameEngine s t ∧ t.queue = rest ∧ t.responses = .busError off :: s.responses

/-- R43: what a read transaction returns at each offset, and that a read is allowed at all times, also while BUSY = 1, and
has no side effect on any state. -/
def Obligations.ReadReturnsTheRegister : Prop :=
  ∀ (s : State) (off : BitVec 8) (n : Nat) (rest : List BusEvent), HostTurn s (.read off n) rest →
    ∃ t answer, step s = .next t ∧ SameEngine s t ∧ t.queue = rest ∧ t.responses = answer :: s.responses ∧
      (n ≠ 4 ∨ off.toNat % 4 ≠ 0 ∨ ReservedOffset off → answer = .busError off) ∧
      (n = 4 → off = 0x000 → answer = .data 0x53323536) ∧
      (n = 4 → off = 0x004 → answer = .data 0x00000001) ∧
      (n = 4 → off = 0x008 → answer = .data 0x00000000) ∧
      (n = 4 → off = 0x00C → answer = .data
        ((BitVec.ofBool s.errCmd ++ BitVec.ofBool s.errBusy ++ BitVec.ofBool s.done ++ BitVec.ofBool s.busy).setWidth 32)) ∧
      (n = 4 → off = 0x010 → answer = .data s.opa) ∧ (n = 4 → off = 0x014 → answer = .data s.opb) ∧
      (n = 4 → off = 0x018 → answer = .data s.opc) ∧ (n = 4 → off = 0x01C → answer = .data s.opd) ∧
      (n = 4 → off = 0x020 → answer = .data s.res) ∧
      (∀ j : Fin 16, n = 4 → off.toNat = 0x040 + 4 * j.val → answer = .data s.m[j.val]) ∧
      (∀ i : Fin 8, n = 4 → off.toNat = 0x080 + 4 * i.val → answer = .data s.h[i.val])

/-- R44, the stores (R19, R29, R30): with BUSY = 0 a write to OPA to OPD, M or H completes normally, the register then
reads as the value written, and every other register, every STATUS bit and the hidden state are unchanged. -/
def Obligations.IdleWriteStoresTheValue : Prop :=
  ∀ (s : State) (r : Reg) (v : Word) (rest : List BusEvent),
    r.stores = true → s.busy = false → HostTurn s (.write (regOffset r) 4 v) rest →
    ∃ t, step s = .next t ∧ readReg r t = v ∧ (∀ r', r' ≠ r → readReg r' t = readReg r' s) ∧
      t.busy = s.busy ∧ t.seq = s.seq ∧ t.cyclesLeft = s.cyclesLeft ∧ t.freeCtr = s.freeCtr ∧
      t.queue = rest ∧ t.responses = .done :: s.responses

/-- R46: a write to ID, VERSION or RES completes normally and changes no state; a read of CMD returns 0; a write of ones to
STATUS.BUSY and the reserved STATUS bits is ignored. -/
def Obligations.ReadOnlyAndReservedBitsIgnoreWrites : Prop :=
  (∀ (s : State) (r : Reg) (v : Word) (rest : List BusEvent),
    (r = .id ∨ r = .version ∨ r = .res) → HostTurn s (.write (regOffset r) 4 v) rest →
    ∃ t, step s = .next t ∧ SameEngine s t ∧ t.queue = rest ∧ t.responses = .done :: s.responses) ∧
  (∀ (s : State) (rest : List BusEvent), HostTurn s (.read (regOffset .cmd) 4) rest →
    ∃ t, step s = .next t ∧ SameEngine s t ∧ t.responses = .data 0x00000000 :: s.responses) ∧
  (∀ (s : State) (v : Word) (rest : List BusEvent),
    v &&& 0x0000000E = 0 → HostTurn s (.write (regOffset .status) 4 v) rest →
    ∃ t, step s = .next t ∧ SameEngine s t ∧ t.queue = rest ∧ t.responses = .done :: s.responses)

/-- R24: STATUS reads as its four bits with 31:4 zero; it is 0 after reset; a write of v, accepted also while BUSY = 1,
clears DONE, ERR_BUSY and ERR_CMD where v[1], v[2] and v[3] are 1 and changes nothing else. -/
def Obligations.StatusIsWriteOneToClear : Prop :=
  (∀ s : State, (readReg .status s).getLsbD 0 = s.busy ∧ (readReg .status s).getLsbD 1 = s.done ∧
    (readReg .status s).getLsbD 2 = s.errBusy ∧ (readReg .status s).getLsbD 3 = s.errCmd ∧
    ∀ k, 4 ≤ k → (readReg .status s).getLsbD k = false) ∧
  readReg .status State.reset = 0 ∧
  (∀ (s : State) (v : Word) (rest : List BusEvent), HostTurn s (.write (regOffset .status) 4 v) rest →
    ∃ t, step s = .next t ∧
      t.done = (if v.getLsbD 1 then false else s.done) ∧
      t.errBusy = (if v.getLsbD 2 then false else s.errBusy) ∧
      t.errCmd = (if v.getLsbD 3 then false else s.errCmd) ∧
      SameEngine { s with done := t.done, errBusy := t.errBusy, errCmd := t.errCmd } t ∧
      t.queue = rest ∧ t.responses = .done :: s.responses)

/-- R120: while BUSY = 1 a write to CMD, OPA to OPD, M or H sets ERR_BUSY and has no other effect, and its bus transaction
completes normally; writes to STATUS and to the read-only registers and reads are not rejected: ERR_BUSY is not set by
them. -/
def Obligations.BusyRejectsWrites : Prop :=
  (∀ (s : State) (r : Reg) (v : Word) (rest : List BusEvent),
    r.gatedByBusy = true → s.busy = true → HostTurn s (.write (regOffset r) 4 v) rest →
    ∃ t, step s = .next t ∧ t.errBusy = true ∧ SameEngine { s with errBusy := true } t ∧
      t.queue = rest ∧ t.responses = .done :: s.responses) ∧
  (∀ (s : State) (r : Reg) (v : Word) (rest : List BusEvent),
    (r = .status ∨ r = .id ∨ r = .version ∨ r = .res) → s.busy = true → s.errBusy = false →
    HostTurn s (.write (regOffset r) 4 v) rest ∨ HostTurn s (.read (regOffset r) 4) rest →
    ∃ t, step s = .next t ∧ t.errBusy = false ∧ t.busy = true) ∧
  (∀ (s : State) (r : Reg) (rest : List BusEvent), s.busy = true → HostTurn s (.read (regOffset r) 4) rest →
    ∃ t, step s = .next t ∧ SameEngine s t ∧ t.responses = .data (readReg r s) :: s.responses)

/-- R119: an illegal command word written with BUSY = 0 sets ERR_CMD and changes nothing else, and the bus transaction
completes normally. -/
def Obligations.IllegalWordSetsErrCmdOnly : Prop :=
  ∀ (s : State) (v : Word) (rest : List BusEvent), legal v = false → s.busy = false → CmdTurn s v rest →
    ∃ t, step s = .next t ∧ t.errCmd = true ∧ SameEngine { s with errCmd := true } t ∧
      t.queue = rest ∧ t.responses = .done :: s.responses

/-- R121: the checks are made in the order BusError, ERR_BUSY, ERR_CMD, and one transaction reports at most one error. An
illegal command word written while BUSY = 1 sets ERR_BUSY only. A read can only raise BusError. -/
def Obligations.OneErrorPerTransactionInOrder : Prop :=
  (∀ (s t : State) (off : BitVec 8) (n : Nat) (rest : List BusEvent), HostTurn s (.read off n) rest → step s = .next t →
    t.errBusy = s.errBusy ∧ t.errCmd = s.errCmd ∧
    (target off n = none ↔ t.responses = .busError off :: s.responses)) ∧
  ∀ (s t : State) (off : BitVec 8) (n : Nat) (v : Word) (rest : List BusEvent),
    HostTurn s (.write off n v) rest → step s = .next t → s.errBusy = false → s.errCmd = false →
    (target off n = none → t.responses = .busError off :: s.responses ∧ t.errBusy = false ∧ t.errCmd = false) ∧
    (∀ r, target off n = some r → r.gatedByBusy = true → s.busy = true →
      t.responses = .done :: s.responses ∧ t.errBusy = true ∧ t.errCmd = false) ∧
    (target off n = some .cmd → s.busy = false → legal v = false →
      t.responses = .done :: s.responses ∧ t.errBusy = false ∧ t.errCmd = true) ∧
    ¬(t.errBusy = true ∧ t.errCmd = true)

/-! ## Command words -/

/-- R64, and R65 which the spec marks as derived from R60, R62 and R64: no word is admitted by two rows of the match and
mask table; a word decodes exactly when one row admits it, to the instruction of that row's mnemonic; it is illegal
exactly in the four cases (a) to (d); and an illegal word is rejected by the name of its case. The names, and that a word
of several cases is rejected under the first in the order RSVD, opcode, IMM, are the model's (log entry 14). -/
def Obligations.WordIsLegalIffOneRowAdmitsIt : Prop :=
  (∀ v : Word, (opcodeTable.filter (fun r => r.admits v)).length ≤ 1) ∧
  (∀ (v : Word) (i : Instr), decode v = .ok i → ∃ r ∈ opcodeTable, r.admits v = true ∧ r.mnemonic = i.mnemonic) ∧
  (∀ v : Word, legal v = true → ∃ i, decode v = .ok i) ∧
  (∀ v : Word, legal v = false ↔
    (v.extractLsb' 14 18 ≠ 0 ∨
     (∀ i : Instr, v.extractLsb' 0 8 ≠ i.opcode) ∨
     (v.extractLsb' 8 6 ≠ 0 ∧ v.extractLsb' 0 8 ≠ 0x03 ∧ v.extractLsb' 0 8 ≠ 0x10 ∧ v.extractLsb' 0 8 ≠ 0x11) ∨
     (v.getLsbD 13 = true ∧ (v.extractLsb' 0 8 = 0x10 ∨ v.extractLsb' 0 8 = 0x11)))) ∧
  (∀ v : Word, decode v = .error .reservedBits ↔ v.extractLsb' 14 18 ≠ 0) ∧
  (∀ v : Word, decode v = .error .reservedOpcode ↔
    v.extractLsb' 14 18 = 0 ∧ ∀ i : Instr, v.extractLsb' 0 8 ≠ i.opcode) ∧
  (∀ v : Word, decode v = .error .nonzeroImm ↔
    v.extractLsb' 14 18 = 0 ∧ (∃ i : Instr, v.extractLsb' 0 8 = i.opcode) ∧
    v.extractLsb' 8 6 ≠ 0 ∧ v.extractLsb' 0 8 ≠ 0x03 ∧ v.extractLsb' 0 8 ≠ 0x10 ∧ v.extractLsb' 0 8 ≠ 0x11) ∧
  (∀ v : Word, decode v = .error .shiftTooLarge ↔
    v.extractLsb' 14 18 = 0 ∧ v.getLsbD 13 = true ∧ (v.extractLsb' 0 8 = 0x10 ∨ v.extractLsb' 0 8 = 0x11))

/-- R64, R70: decoding and encoding agree on every word and every instruction: a word decodes to i exactly when i is well
formed and the word is i's command word. So no bit of a command word is dropped, every operand the encoding admits is
read, and an out-of-range shift has no word that decodes. -/
def Obligations.DecodeAndEncodeAgree : Prop :=
  (∀ (v : Word) (i : Instr), decode v = .ok i ↔ i.wf = true ∧ encode i = v) ∧
  (∀ i : Instr, i.wf = false → decode (encode i) = .error .shiftTooLarge)

/-- 95_test_vectors.md 2.2, V-DEC-1 to V-DEC-23: words written out from the encodings of R64 and R72 decode to the
instruction they stand for, and the illegal ones are rejected (the names of their cases are the model's, log entry 14). -/
def Obligations.SpecWordsDecodeAsListed : Prop :=
  decode 0x00000000 = .ok .nop ∧ decode 0x00000001 = .ok .init ∧ decode 0x00000002 = .ok .compress ∧
  decode 0x00000003 = .ok (.krd 0) ∧ decode 0x00003F03 = .ok (.krd 63) ∧ decode 0x00000710 = .ok (.rotr 7) ∧
  decode 0x00001210 = .ok (.rotr 18) ∧ decode 0x00001F11 = .ok (.shr 31) ∧ decode 0x00000A11 = .ok (.shr 10) ∧
  decode 0x00000028 = .ok .t2 ∧ decode 0x00000026 = .ok .wstep ∧
  decode 0x00004003 = .error .reservedBits ∧ decode 0x00002010 = .error .shiftTooLarge ∧
  decode 0x00003F11 = .error .shiftTooLarge ∧ decode 0x00000004 = .error .reservedOpcode ∧
  decode 0x0000000F = .error .reservedOpcode ∧ decode 0x00000013 = .error .reservedOpcode ∧
  decode 0x00000029 = .error .reservedOpcode ∧
  decode 0x000000FF = .error .reservedOpcode ∧ decode 0x00000100 = .error .nonzeroImm ∧
  decode 0x00000112 = .error .nonzeroImm ∧ decode 0x00000102 = .error .nonzeroImm ∧
  decode 0x80000020 = .error .reservedBits

/-- R44, R61, R66: when the host's next transaction is the CMD write of a word that decodes to i, the step is `exec i` in
the state where that write has been taken off the queue, answered with normal completion, and counted as one host turn
(the last three are the model's bus, log entries 2 and 5). R61 and R66 speak of BUSY = 0; for BUSY = 1 the statement holds
because the model's `exec` of any command is then the rejection of R120, under which the word is not executed (log entry
10). `withFetchWord` puts a word there. -/
def Obligations.StepRunsTheDecodedCommand : Prop :=
  (∀ (s : State) (v : Word) (i : Instr) (rest : List BusEvent), decode v = .ok i → CmdTurn s v rest →
    step s = exec i { s with queue := rest, hostTurns := s.hostTurns - 1, responses := .done :: s.responses }) ∧
  (∀ (s : State) (v : Word) (i : Instr), decode v = .ok i →
    step (s.withFetchWord 32 v.toNat) = exec i { s with responses := .done :: s.responses })

/-! ## The block commands -/

/-- R74: NOP, word 0x00000000, changes nothing and writes no flag. -/
def Obligations.NopChangesNothing : Prop :=
  decode 0x00000000 = .ok .nop ∧ encode .nop = 0x00000000 ∧
  (∀ s : State, s.busy = false → exec .nop s = .next s) ∧
  (∀ s : State, s.busy = false → readReg .status s = 0x00000002 →
    ∃ t, exec .nop s = .next t ∧ readReg .status t = 0x00000002 ∧ ∀ r, readReg r t = readReg r s)

/-- R75: INIT, word 0x00000001, sets H[i] to IV[i] for i in 0..7 and leaves STATUS, M, OPA to OPD and RES unchanged; after
reset it changes nothing; twice is once. -/
def Obligations.InitReloadsTheChainingState : Prop :=
  decode 0x00000001 = .ok .init ∧ encode .init = 0x00000001 ∧
  (∀ s : State, s.busy = false → ∃ t, exec .init s = .next t ∧ (∀ i : Fin 8, t.h[i.val] = IV[i.val]) ∧
    t = { s with h := t.h } ∧ exec .init t = .next t) ∧
  exec .init State.reset = .next State.reset ∧
  (∀ s : State, s.busy = false → s.h[0] = 0x12345678 →
    ∃ t, exec .init s = .next t ∧ t.h[0] = 0x6A09E667 ∧ t.h[7] = 0x5BE0CD19)

/-- R81: COMPRESS, word 0x00000002, accepted with BUSY = 0: BUSY <- 1, DONE <- 0, the sequencer starts on the current H and
M, and H, M, OPA to OPD, RES, ERR_BUSY and ERR_CMD are unchanged. That it starts in the schedule phase with round index 0,
with W and a..h whatever they were, is the model's sequencer (log entries 3 and 6). -/
def Obligations.CompressAcceptanceStartsTheSequencer : Prop :=
  decode 0x00000002 = .ok .compress ∧ encode .compress = 0x00000002 ∧
  ∀ s : State, s.busy = false → ∃ t, exec .compress s = .next t ∧ t.busy = true ∧ t.done = false ∧
    t.seq.phase = .schedule ∧ t.seq.round = 0 ∧ SequencerInv t.m t.h t.seq ∧
    t.h = s.h ∧ t.m = s.m ∧ t.opa = s.opa ∧ t.opb = s.opb ∧ t.opc = s.opc ∧ t.opd = s.opd ∧ t.res = s.res ∧
    t.errBusy = s.errBusy ∧ t.errCmd = s.errCmd ∧ t.queue = s.queue ∧ t.responses = s.responses

/-- R82: the completion is enabled exactly when BUSY = 1 and is the engine's own step, between two transactions: wherever
a step that performs no reset ends BUSY (a reset may stand next in the queue), no transaction is performed in it, H is Compress(H, M), all eight words at once, DONE is
1, and M, OPA to OPD, RES and the error bits are unchanged; until then H is as at acceptance; with BUSY = 0 nothing
completes; a reset while BUSY = 1 cancels. -/
def Obligations.CompletionIsOneEngineStep : Prop :=
  ∀ s t : State, step s = .next t →
    (s.busy = true → t.busy = false → (¬∃ rest, HostTurn s .reset rest) →
      EngineTurn s ∧ t.h = compress s.h s.m ∧ t.done = true ∧ t.m = s.m ∧ t.opa = s.opa ∧ t.opb = s.opb ∧
      t.opc = s.opc ∧ t.opd = s.opd ∧ t.res = s.res ∧ t.errBusy = s.errBusy ∧ t.errCmd = s.errCmd ∧
      t.queue = s.queue ∧ t.responses = s.responses) ∧
    (s.busy = true → t.busy = true → t.h = s.h ∧ t.m = s.m) ∧
    (s.busy = true → t.busy = false → ¬EngineTurn s → t.h = IV ∧ t.done = false) ∧
    (s.busy = false → t.done = true → s.done = true)

/-- R82's Complete at the LAT_COMPRESS-th cycle after acceptance (cyclesLeft counts down from LAT_COMPRESS: log entry 1);
an earlier engine cycle is hidden work: nothing that a bus transaction can see changes. -/
def Obligations.EngineCompletesAtItsLastCycle : Prop :=
  (∀ s : State, EngineTurn s → s.cyclesLeft ≤ 1 →
    ∃ t, step s = .next t ∧ t.busy = false ∧ t.done = true ∧ t.h = compress s.h s.m ∧ t.seq.phase = .idle) ∧
  (∀ s : State, EngineTurn s → 1 < s.cyclesLeft →
    ∃ t, step s = .next t ∧ t.busy = true ∧ t.cyclesLeft = s.cyclesLeft - 1 ∧ t.done = s.done ∧ t.queue = s.queue ∧
      t.responses = s.responses ∧ ∀ r, readReg r t = readReg r s) ∧
  (∀ s : State, s.busy = false → ∃ t, exec .compress s = .next t ∧ t.cyclesLeft = Config.latCompress ∧ 1 ≤ t.cyclesLeft)

/-- R85: KRD i, word 0x00000003 OR (i << 8), writes K[i] to RES for every i in 0..63, and nothing else. -/
def Obligations.KrdReadsTheRoundConstant : Prop :=
  (∀ i : Fin 64, WritesResult (.krd (BitVec.ofNat 6 i.val)) (0x00000003 ||| (BitVec.ofNat 32 i.val <<< 8))
    (fun _ => K[i.val])) ∧
  GivesRes (.krd 0) State.reset 0x428A2F98 ∧ GivesRes (.krd 63) State.reset 0xC67178F2 ∧
  decode 0x00003F03 = .ok (.krd 63) ∧ decode 0x00001F03 = .ok (.krd 31) ∧ GivesRes (.krd 31) State.reset 0x14292967

/-! ## The rotator and adder commands -/

/-- R90: ROTR n, word 0x00000010 OR (n << 8), for every n in 0..31 (no word with bit 13 set decodes to it), with its corner
cases and example. -/
def Obligations.RotrRotatesOpaRight : Prop :=
  (∀ n : Fin 32, WritesResult (.rotr (BitVec.ofNat 6 n.val)) (0x00000010 ||| (BitVec.ofNat 32 n.val <<< 8))
    (fun s => s.opa.rotateRight n.val)) ∧
  (∀ n : BitVec 6, 32 ≤ n.toNat → ∀ v : Word, decode v ≠ .ok (.rotr n)) ∧
  (∀ s : State, s.busy = false → GivesRes (.rotr 0) s s.opa) ∧
  GivesRes (.rotr 1) (withOperands 0x00000001 0 0 0) 0x80000000 ∧
  GivesRes (.rotr 31) (withOperands 0x80000000 0 0 0) 0x00000001 ∧
  (∀ n : Fin 32, GivesRes (.rotr (BitVec.ofNat 6 n.val)) (withOperands 0xFFFFFFFF 0 0 0) 0xFFFFFFFF) ∧
  decode 0x00000410 = .ok (.rotr 4) ∧ GivesRes (.rotr 4) (withOperands 0x12345678 0 0 0) 0x81234567

/-- R91: SHR n, word 0x00000011 OR (n << 8), for every n in 0..31: the zero-filling right shift, OPA div 2^n, with its
corner cases and example. -/
def Obligations.ShrShiftsOpaRightWithZeroFill : Prop :=
  (∀ n : Fin 32, WritesResult (.shr (BitVec.ofNat 6 n.val)) (0x00000011 ||| (BitVec.ofNat 32 n.val <<< 8))
    (fun s => BitVec.ofNat 32 (s.opa.toNat / 2 ^ n.val))) ∧
  (∀ n : BitVec 6, 32 ≤ n.toNat → ∀ v : Word, decode v ≠ .ok (.shr n)) ∧
  (∀ s : State, s.busy = false → GivesRes (.shr 0) s s.opa) ∧
  GivesRes (.shr 31) (withOperands 0x80000000 0 0 0) 0x00000001 ∧
  GivesRes (.shr 31) (withOperands 0x7FFFFFFF 0 0 0) 0x00000000 ∧
  GivesRes (.shr 7) (withOperands 0xFFFFFFFF 0 0 0) 0x01FFFFFF ∧
  decode 0x00001011 = .ok (.shr 16) ∧ GivesRes (.shr 16) (withOperands 0x12345678 0 0 0) 0x00001234

/-- R92: ADD, word 0x00000012, writes (OPA + OPB) mod 2^32 and no flag, with its corner cases and example. -/
def Obligations.AddIsModuloTwoToThe32 : Prop :=
  WritesResult .add 0x00000012 (fun s => BitVec.ofNat 32 ((s.opa.toNat + s.opb.toNat) % 2 ^ 32)) ∧
  GivesRes .add (withOperands 0xFFFFFFFF 0x00000001 0 0) 0x00000000 ∧
  GivesRes .add (withOperands 0x80000000 0x80000000 0 0) 0x00000000 ∧
  GivesRes .add (withOperands 0x7FFFFFFF 0x00000001 0 0) 0x80000000 ∧
  GivesRes .add (withOperands 0x12345678 0x9ABCDEF0 0 0) 0xACF13568

/-! ## The mixing commands -/

/-- R93: SSIG0, word 0x00000020: σ0 of OPA, with its corner cases and example. -/
def Obligations.Ssig0WritesSmallSigmaZero : Prop :=
  WritesResult .ssig0 0x00000020 (fun s => s.opa.rotateRight 7 ^^^ s.opa.rotateRight 18 ^^^ (s.opa >>> 3)) ∧
  GivesRes .ssig0 (withOperands 0 0 0 0) 0 ∧ GivesRes .ssig0 (withOperands 0xFFFFFFFF 0 0 0) 0x1FFFFFFF ∧
  GivesRes .ssig0 (withOperands 0x00000001 0 0 0) 0x02004000 ∧
  GivesRes .ssig0 (withOperands 0x80000000 0 0 0) 0x11002000 ∧
  GivesRes .ssig0 (withOperands 0x12345678 0 0 0) 0xE7FCE6EE

/-- R94: SSIG1, word 0x00000021: σ1 of OPA, with its corner cases and example. -/
def Obligations.Ssig1WritesSmallSigmaOne : Prop :=
  WritesResult .ssig1 0x00000021 (fun s => s.opa.rotateRight 17 ^^^ s.opa.rotateRight 19 ^^^ (s.opa >>> 10)) ∧
  GivesRes .ssig1 (withOperands 0 0 0 0) 0 ∧ GivesRes .ssig1 (withOperands 0xFFFFFFFF 0 0 0) 0x003FFFFF ∧
  GivesRes .ssig1 (withOperands 0x00000001 0 0 0) 0x0000A000 ∧
  GivesRes .ssig1 (withOperands 0x80000000 0 0 0) 0x00205000 ∧
  GivesRes .ssig1 (withOperands 0x12345678 0 0 0) 0xA1F78649

/-- R95: BSIG0, word 0x00000022: Σ0 of OPA, with its corner cases and example. -/
def Obligations.Bsig0WritesBigSigmaZero : Prop :=
  WritesResult .bsig0 0x00000022 (fun s => s.opa.rotateRight 2 ^^^ s.opa.rotateRight 13 ^^^ s.opa.rotateRight 22) ∧
  GivesRes .bsig0 (withOperands 0 0 0 0) 0 ∧ GivesRes .bsig0 (withOperands 0xFFFFFFFF 0 0 0) 0xFFFFFFFF ∧
  GivesRes .bsig0 (withOperands 0x00000001 0 0 0) 0x40080400 ∧
  GivesRes .bsig0 (withOperands 0x80000000 0 0 0) 0x20040200 ∧
  GivesRes .bsig0 (withOperands 0x6A09E667 0 0 0) 0xCE20B47E

/-- R96: BSIG1, word 0x00000023: Σ1 of OPA, with its corner cases and example. -/
def Obligations.Bsig1WritesBigSigmaOne : Prop :=
  WritesResult .bsig1 0x00000023 (fun s => s.opa.rotateRight 6 ^^^ s.opa.rotateRight 11 ^^^ s.opa.rotateRight 25) ∧
  GivesRes .bsig1 (withOperands 0 0 0 0) 0 ∧ GivesRes .bsig1 (withOperands 0xFFFFFFFF 0 0 0) 0xFFFFFFFF ∧
  GivesRes .bsig1 (withOperands 0x00000001 0 0 0) 0x04200080 ∧
  GivesRes .bsig1 (withOperands 0x80000000 0 0 0) 0x02100040 ∧
  GivesRes .bsig1 (withOperands 0x510E527F 0 0 0) 0x3587272B

/-- R97: CH, word 0x00000024: (OPA AND OPB) XOR ((NOT OPA) AND OPC), whatever OPD is, with its corner cases and example. -/
def Obligations.ChChoosesByOpa : Prop :=
  WritesResult .ch 0x00000024 (fun s => (s.opa &&& s.opb) ^^^ ((s.opa ^^^ 0xFFFFFFFF) &&& s.opc)) ∧
  (∀ s : State, s.busy = false → s.opa = 0 → GivesRes .ch s s.opc) ∧
  (∀ s : State, s.busy = false → s.opa = 0xFFFFFFFF → GivesRes .ch s s.opb) ∧
  (∀ d : Word, GivesRes .ch (withOperands 0xFFFF0000 0x12345678 0x9ABCDEF0 d) 0x1234DEF0) ∧
  (∀ d : Word, GivesRes .ch (withOperands 0x510E527F 0x9B05688C 0x1F83D9AB d) 0x1F85C98C)

/-- R98: MAJ, word 0x00000025: (OPA AND OPB) XOR (OPA AND OPC) XOR (OPB AND OPC), whatever OPD is, with its corner cases
and example. -/
def Obligations.MajTakesTheMajority : Prop :=
  WritesResult .maj 0x00000025 (fun s => (s.opa &&& s.opb) ^^^ (s.opa &&& s.opc) ^^^ (s.opb &&& s.opc)) ∧
  (∀ d : Word, GivesRes .maj (withOperands 0 0 0xFFFFFFFF d) 0) ∧
  (∀ d : Word, GivesRes .maj (withOperands 0xFFFFFFFF 0xFFFFFFFF 0 d) 0xFFFFFFFF) ∧
  (∀ d : Word, GivesRes .maj (withOperands 0xFFFF0000 0xFF00FF00 0xF0F0F0F0 d) 0xFFF0F000) ∧
  (∀ d : Word, GivesRes .maj (withOperands 0x6A09E667 0xBB67AE85 0x3C6EF372 d) 0x3A6FE667)

/-- R99: WSTEP, word 0x00000026: (σ1(OPA) + OPB + σ0(OPC) + OPD) mod 2^32. It is one step of the expander that COMPRESS
uses: on W[i−2], W[i−7], W[i−15], W[i−16] of a schedule it gives W[i]. With its corner cases and example. -/
def Obligations.WstepIsOneStepOfTheExpander : Prop :=
  WritesResult .wstep 0x00000026 (fun s =>
    BitVec.ofNat 32 ((ssig1 s.opa).toNat + s.opb.toNat + (ssig0 s.opc).toNat + s.opd.toNat)) ∧
  (∀ (m : Vector Word 16) (i : Fin 48),
    GivesRes .wstep
      (withOperands (expand m)[i.val + 14] (expand m)[i.val + 9] (expand m)[i.val + 1] (expand m)[i.val])
      (expand m)[i.val + 16]) ∧
  GivesRes .wstep (withOperands 0 0 0 0) 0 ∧ GivesRes .wstep (withOperands 0 0x80000000 0 0x80000000) 0 ∧
  GivesRes .wstep (withOperands 0x00000018 0 0 0) 0x000F0000

/-- R100: T1P, word 0x00000027: (OPD + Σ1(OPA) + Ch(OPA, OPB, OPC)) mod 2^32; the round's T1 is (RES + K[i] + W[i])
mod 2^32, so that e' of the round is d + T1. With its corner cases and example. -/
def Obligations.T1pIsThePartialFirstTemporary : Prop :=
  WritesResult .t1p 0x00000027 (fun s =>
    BitVec.ofNat 32 (s.opd.toNat + (bsig1 s.opa).toNat + (ch s.opa s.opb s.opc).toNat)) ∧
  (∀ (w : Vector Word 64) (v : Vars) (i : Fin 64),
    GivesRes .t1p (withOperands v.e v.f v.g v.h) ((roundStep w v i).e - v.d - K[i.val] - w[i.val])) ∧
  GivesRes .t1p (withOperands 0 0 0 0) 0 ∧
  (∀ s : State, s.busy = false → s.opa = 0 → GivesRes .t1p s (s.opd + s.opc)) ∧
  GivesRes .t1p (withOperands 0x510E527F 0x9B05688C 0x1F83D9AB 0x5BE0CD19) 0xB0EDBDD0

/-- R101: T2, word 0x00000028: (Σ0(OPA) + Maj(OPA, OPB, OPC)) mod 2^32, whatever OPD is, with its corner cases and
example. -/
def Obligations.T2IsTheSecondTemporary : Prop :=
  WritesResult .t2 0x00000028 (fun s => BitVec.ofNat 32 ((bsig0 s.opa).toNat + (maj s.opa s.opb s.opc).toNat)) ∧
  (∀ d : Word, GivesRes .t2 (withOperands 0 0 0 d) 0) ∧
  (∀ d : Word, GivesRes .t2 (withOperands 0xFFFFFFFF 0xFFFFFFFF 0xFFFFFFFF d) 0xFFFFFFFE) ∧
  (∀ d : Word, GivesRes .t2 (withOperands 0x6A09E667 0xBB67AE85 0x3C6EF372 d) 0x08909AE5)

/-- Bit by bit, as R90, R91, R97 and R98 derive it: RES[j] after ROTR is OPA[(j + n) mod 32]; after SHR it is OPA[j + n],
or 0 past bit 31; after CH it is OPB[j] where OPA[j] = 1 and OPC[j] where OPA[j] = 0; after MAJ it is 1 exactly when at
least two of OPA[j], OPB[j], OPC[j] are 1. -/
def Obligations.RotateShiftChooseMajorityBitByBit : Prop :=
  (∀ (s t : State) (n : BitVec 6) (j : Nat), s.busy = false → n.toNat < 32 → j < 32 → exec (.rotr n) s = .next t →
    t.res.getLsbD j = s.opa.getLsbD ((j + n.toNat) % 32)) ∧
  (∀ (s t : State) (n : BitVec 6) (j : Nat), s.busy = false → n.toNat < 32 → exec (.shr n) s = .next t →
    t.res.getLsbD j = (decide (j + n.toNat < 32) && s.opa.getLsbD (j + n.toNat))) ∧
  (∀ (s t : State) (j : Nat), s.busy = false → j < 32 → exec .ch s = .next t →
    t.res.getLsbD j = if s.opa.getLsbD j then s.opb.getLsbD j else s.opc.getLsbD j) ∧
  (∀ (s t : State) (j : Nat), s.busy = false → j < 32 → exec .maj s = .next t →
    (t.res.getLsbD j = true ↔
      2 ≤ (s.opa.getLsbD j).toNat + (s.opb.getLsbD j).toNat + (s.opc.getLsbD j).toNat))

/-! ## Rules over all commands -/

/-- R89: a primitive command, accepted through its CMD write, completes within that write; RES is a function of OPA to OPD
as they are at the write, and every other register, STATUS, the hidden state and the model's counters are unchanged. RES
then keeps the result: a later step that changes it is another accepted KRD or primitive command or a reset. -/
def Obligations.PrimitiveCommandsWriteOnlyRes : Prop :=
  (∀ i : Instr, i.family ≠ .block → i.wf = true → ∃ f : Word → Word → Word → Word → Word,
    ∀ (s : State) (rest : List BusEvent), s.busy = false → CmdTurn s (encode i) rest →
      ∃ t, step s = .next t ∧ t.res = f s.opa s.opb s.opc s.opd ∧ (∀ r, r ≠ .res → readReg r t = readReg r s) ∧
        SameEngine { s with res := t.res } t ∧ t.queue = rest ∧ t.responses = .done :: s.responses) ∧
  (∀ (s t : State), step s = .next t → t.res ≠ s.res →
    (∃ rest, HostTurn s .reset rest) ∨
    (∃ v i rest, CmdTurn s v rest ∧ s.busy = false ∧ decode v = .ok i ∧ writesRes i = true))

/-- R86 (and R120): while BUSY = 1 every CMD write, its word legal or not, is rejected with ERR_BUSY and has no effect of
its own. That `exec` of a command answers the same rejection then is the model's (log entry 10). -/
def Obligations.BusyRejectsEveryCommand : Prop :=
  (∀ (i : Instr) (s : State), s.busy = true → exec i s = .next { s with errBusy := true }) ∧
  (∀ (v : Word) (s : State) (rest : List BusEvent), s.busy = true → CmdTurn s v rest →
    ∃ t, step s = .next t ∧ SameEngine { s with errBusy := true } t ∧ t.errCmd = s.errCmd)

/-- R48, which the spec marks as derived: repeating INIT, NOP, KRD or a primitive command leaves the same state; repeating
an accepted COMPRESS once it has completed compresses the block again into the new chaining state. -/
def Obligations.RepeatingACommand : Prop :=
  (∀ (i : Instr) (s t : State), i ≠ .compress → s.busy = false → exec i s = .next t → exec i t = .next t) ∧
  (∀ s t u : State, exec .compress s = .next t → s.busy = false →
    (∃ k, stepsTo k { t with queue := [] } u ∧ u.busy = false ∧ u.queue = []) →
    u.h = compress s.h s.m ∧ u.m = s.m ∧
    ∃ u', exec .compress u = .next u' ∧ ∀ (w : State) (k : Nat), stepsTo k u' w → w.busy = false →
      w.h = compress (compress s.h s.m) s.m)

/-! ## The compression function -/

/-- R78: the schedule. W[i] is M[i] for i in 0..15 and (W[i−16] + σ0(W[i−15]) + W[i−7] + σ1(W[i−2])) mod 2^32 for i in
16..63, and that determines it; with the example of the block of "abc". -/
def Obligations.ExpandIsTheScheduleRecurrence : Prop :=
  (∀ (m : Vector Word 16) (w : Vector Word 64), w = expand m ↔
    (∀ i : Fin 16, w[i.val] = m[i.val]) ∧
    (∀ i : Fin 48, w[i.val + 16] = w[i.val] + ssig0 w[i.val + 1] + w[i.val + 9] + ssig1 w[i.val + 14])) ∧
  (∀ m : Vector Word 16, m[0] = 0x61626380 → m[15] = 0x00000018 → (∀ j : Fin 16, j ≠ 0 → j ≠ 15 → m[j.val] = 0) →
    (expand m)[16] = 0x61626380 ∧ (expand m)[17] = 0x000F0000 ∧ (expand m)[18] = 0x7DA86405 ∧
    (expand m)[19] = 0x600003C6 ∧ (expand m)[63] = 0x12B1EDEB)

/-- R79: one round, every right-hand side read from the tuple before the round, with the example of round 0 of "abc". -/
def Obligations.RoundIsASimultaneousUpdate : Prop :=
  (∀ (w : Vector Word 64) (v : Vars) (i : Fin 64),
    let S1 := v.e.rotateRight 6 ^^^ v.e.rotateRight 11 ^^^ v.e.rotateRight 25
    let Ch := (v.e &&& v.f) ^^^ (~~~v.e &&& v.g)
    let T1 := BitVec.ofNat 32 (v.h.toNat + S1.toNat + Ch.toNat + K[i.val].toNat + w[i.val].toNat)
    let S0 := v.a.rotateRight 2 ^^^ v.a.rotateRight 13 ^^^ v.a.rotateRight 22
    let Maj := (v.a &&& v.b) ^^^ (v.a &&& v.c) ^^^ (v.b &&& v.c)
    let T2 := S0 + Maj
    roundStep w v i = { a := T1 + T2, b := v.a, c := v.b, d := v.c, e := v.d + T1, f := v.e, g := v.f, h := v.g }) ∧
  (∀ w : Vector Word 64, w[0] = 0x61626380 → roundStep w (seed IV) 0 =
    { a := 0x5D6AEBCD, b := 0x6A09E667, c := 0xBB67AE85, d := 0x3C6EF372,
      e := 0xFA2A4622, f := 0x510E527F, g := 0x9B05688C, h := 0x1F83D9AB })

/-- R80: Compress(H, M) is the feed-forward of the working variables that 64 rounds, i = 0..63, over Expand(M) make from
the seed (H[0], ..., H[7]). -/
def Obligations.CompressIsSixtyFourRoundsAndFeedForward : Prop :=
  ∀ (h : Vector Word 8) (m : Vector Word 16), ∃ v : Nat → Vars,
    v 0 = { a := h[0], b := h[1], c := h[2], d := h[3], e := h[4], f := h[5], g := h[6], h := h[7] } ∧
    (∀ i : Fin 64, v (i.val + 1) = roundStep (expand m) (v i.val) i) ∧
    (compress h m)[0] = h[0] + (v 64).a ∧ (compress h m)[1] = h[1] + (v 64).b ∧
    (compress h m)[2] = h[2] + (v 64).c ∧ (compress h m)[3] = h[3] + (v 64).d ∧
    (compress h m)[4] = h[4] + (v 64).e ∧ (compress h m)[5] = h[5] + (v 64).f ∧
    (compress h m)[6] = h[6] + (v 64).g ∧ (compress h m)[7] = h[7] + (v 64).h

/-- The hidden sequencer of R33 and R34, taking one schedule word or one round at a time from any content of W and a..h,
holds after 130 micro-steps (64 words, 64 rounds, two changes of phase: log entry 6) working variables whose feed-forward
is Compress(H, M) (R80, R88: "behavior must be bit-identical regardless of loop structure"). -/
def Obligations.SequencerRefinesCompress : Prop :=
  ∀ (m : Vector Word 16) (h : Vector Word 8) (w : Vector Word 64) (v : Vars),
    (ticks m h 130 { w := w, vars := v, round := 0, phase := .schedule }).phase = .feedForward ∧
    feedForward h (ticks m h 130 { w := w, vars := v, round := 0, phase := .schedule }).vars = compress h m

/-! ## Rules over every step of the machine -/

/-- R116, R117 and R142: no error stops the machine. Every command in every state and every step from every state answers a
next state. -/
def Obligations.NothingStopsTheMachine : Prop :=
  (∀ (i : Instr) (s : State), ∃ t, exec i s = .next t) ∧ (∀ s : State, ∃ t, step s = .next t)

/-- R30: H is written by exactly four events: INIT and reset, which write IV; the completion of a COMPRESS, which writes
the feed-forward sum; and a host bus write with BUSY = 0, which writes the bus value into one word. While BUSY = 1 it
holds what it held when the COMPRESS was accepted. After reset it is IV. -/
def Obligations.ChainingStateHasFourWriters : Prop :=
  (∀ s t : State, step s = .next t → t.h ≠ s.h →
    ((∃ rest, HostTurn s .reset rest) ∧ t.h = IV) ∨
    ((∃ rest, CmdTurn s (encode .init) rest) ∧ s.busy = false ∧ t.h = IV) ∨
    (EngineTurn s ∧ t.busy = false ∧ t.h = compress s.h s.m) ∨
    (∃ (i : Fin 8) (v : Word) (rest : List BusEvent), HostTurn s (.write (regOffset (.h i)) 4 v) rest ∧
      s.busy = false ∧ t.h[i.val] = v ∧ ∀ j : Fin 8, j ≠ i → t.h[j.val] = s.h[j.val])) ∧
  (∀ s t : State, step s = .next t → s.busy = true → t.busy = true → t.h = s.h) ∧
  State.reset.h = IV

/-- R20: RES changes only by an accepted primitive or KRD command, and by reset, which sets it to 0; NOP, INIT and COMPRESS
leave it unchanged; a host write to it is ignored without error; it is 0 after reset. -/
def Obligations.ResIsWrittenByResultCommandsOnly : Prop :=
  (∀ s t : State, step s = .next t → t.res ≠ s.res →
    ((∃ rest, HostTurn s .reset rest) ∧ t.res = 0) ∨
    (∃ i rest, CmdTurn s (encode i) rest ∧ i.wf = true ∧ writesRes i = true ∧ s.busy = false)) ∧
  (∀ (i : Instr) (s t : State), (i = .nop ∨ i = .init ∨ i = .compress) → exec i s = .next t → t.res = s.res) ∧
  (∀ (s : State) (v : Word) (rest : List BusEvent), HostTurn s (.write (regOffset .res) 4 v) rest →
    ∃ t, step s = .next t ∧ SameEngine s t ∧ t.responses = .done :: s.responses) ∧
  State.reset.res = 0

/-- R19 and R29: OPA to OPD and M are written by nothing but a host bus write with BUSY = 0, and by reset: no command and no
engine cycle changes them. -/
def Obligations.OperandsAndBlockAreWrittenByTheHostOnly : Prop :=
  (∀ (i : Instr) (s t : State), exec i s = .next t →
    t.opa = s.opa ∧ t.opb = s.opb ∧ t.opc = s.opc ∧ t.opd = s.opd ∧ t.m = s.m) ∧
  (∀ (s t : State) (r : Reg), r = .opa ∨ r = .opb ∨ r = .opc ∨ r = .opd ∨ (∃ j, r = .m j) →
    step s = .next t → readReg r t ≠ readReg r s →
    ((∃ rest, HostTurn s .reset rest) ∧ readReg r t = 0) ∨
    (s.busy = false ∧ ∃ v rest, HostTurn s (.write (regOffset r) 4 v) rest ∧ readReg r t = v))

/-- R25 and R26: BUSY rises only when a COMPRESS is accepted and falls only when it completes or by reset; DONE rises only
at a completion and falls only when a COMPRESS is accepted, by a STATUS write with bit 1 set, and by reset. -/
def Obligations.BusyAndDoneChangeOnlyAsListed : Prop :=
  ∀ s t : State, step s = .next t →
    (s.busy = false → t.busy = true → ∃ rest, CmdTurn s (encode .compress) rest) ∧
    (s.busy = true → t.busy = false → (EngineTurn s ∧ t.done = true) ∨ ∃ rest, HostTurn s .reset rest) ∧
    (s.done = false → t.done = true → EngineTurn s ∧ t.busy = false) ∧
    (s.done = true → t.done = false →
      ((∃ rest, CmdTurn s (encode .compress) rest) ∧ s.busy = false ∧ t.busy = true) ∨
      (∃ v rest, HostTurn s (.write (regOffset .status) 4 v) rest ∧ v.getLsbD 1 = true) ∨
      ∃ rest, HostTurn s .reset rest)

/-- R27, R28 and R123's first sentence: ERR_BUSY is set only by a bus write rejected because BUSY = 1, ERR_CMD only by a CMD
write, not rejected for BUSY, whose word is illegal; each is cleared only by a STATUS write with its bit set, and by
reset. -/
def Obligations.ErrorBitsAreSticky : Prop :=
  ∀ s t : State, step s = .next t →
    (s.errBusy = false → t.errBusy = true →
      s.busy = true ∧ ∃ r v rest, r.gatedByBusy = true ∧ HostTurn s (.write (regOffset r) 4 v) rest) ∧
    (s.errCmd = false → t.errCmd = true → s.busy = false ∧ ∃ v rest, legal v = false ∧ CmdTurn s v rest) ∧
    (s.errBusy = true → t.errBusy = false →
      (∃ v rest, HostTurn s (.write (regOffset .status) 4 v) rest ∧ v.getLsbD 2 = true) ∨
      ∃ rest, HostTurn s .reset rest) ∧
    (s.errCmd = true → t.errCmd = false →
      (∃ v rest, HostTurn s (.write (regOffset .status) 4 v) rest ∧ v.getLsbD 3 = true) ∨
      ∃ rest, HostTurn s .reset rest)

/-- R123: errors do not block: while either bit is 1, every transaction, and every engine cycle, behaves as if it were 0. Two
states that differ in the two error bits and in what the bus has answered go on doing so for every number of steps. -/
def Obligations.ErrorBitsDoNotBlock : Prop :=
  ∀ (k : Nat) (s t s' t' : State), SameButErrors s t → stepsTo k s s' → stepsTo k t t' → SameButErrors s' t'

/-- R35: no host-visible result depends on hidden state. Two states that differ only in W, a..h, the round index and the
phase answer every run of transactions alike, and differ only there afterwards. -/
def Obligations.HiddenStateCannotBeObserved : Prop :=
  ∀ (k : Nat) (s t s' t' : State), SameVisible s t → stepsTo k s s' → stepsTo k t t' →
    SameVisible s' t' ∧ s'.responses = t'.responses ∧ ∀ r, readReg r s' = readReg r t'

/-- The engine's invariant is kept by every step from every state that has it (Safety.lean): BUSY = 1 exactly while the
sequencer is not idle (R18, R34, R129); DONE = 0 while it is (R26, R81, R82); the hidden state is a prefix of the
compression of M into H (R33, R34, R78 to R80). Two clauses are the model's: a pending COMPRESS has engine cycles left (log
entry 1), and the rounds begin only after the whole schedule, one micro-step at a time (log entry 6). -/
def Obligations.EveryStepKeepsTheEngineInvariant : Prop :=
  ∀ s t : State, EngineInv s → step s = .next t → EngineInv t

/-- The engine's invariant (log entries 1 and 6) holds right after reset. -/
def Obligations.ResetHasTheEngineInvariant : Prop := EngineInv State.reset

/-- R53 and U11: a pending COMPRESS is never stuck. From any state with BUSY = 1 and no reset on its way, and whatever the
free numbers of host turns are, it completes after a finite number of steps, bounded by the engine's cycles left and the
host's transactions left (log entries 1 and 2), with Compress of the H and M it had, whatever the host tried to write
meanwhile. -/
def Obligations.PendingCompressCompletes : Prop :=
  ∀ s : State, s.busy = true → .reset ∉ s.queue →
    ∃ (k : Nat) (t : State), k ≤ s.cyclesLeft + s.queue.length + 1 ∧ stepsTo k s t ∧ t.busy = false ∧ t.done = true ∧
      t.h = compress s.h s.m ∧ t.m = s.m ∧ ∃ done, s.queue = done ++ t.queue

/-! ## The host driver -/

/-- R106: the padded buffer satisfies the five conditions, is a whole number N of blocks, N = floor((L + 8) / 64) + 1, and
the input is refused with LengthError(L) exactly when its bit length does not fit in 64 bits (R108). -/
def Obligations.PaddingMeetsTheFiveConditions : Prop :=
  (∀ b : List Byte, pad b = if b.length < 2 ^ 61 then .ok (padded b) else .error (.lengthError b.length)) ∧
  (∀ b : List Byte, b.length < 2 ^ 61 →
    (padded b).take b.length = b ∧
    (padded b)[b.length]? = some 0x80 ∧
    (∀ k, b.length + 1 ≤ k → k + 9 ≤ (padded b).length → (padded b)[k]? = some 0x00) ∧
    (padded b).drop ((padded b).length - 8) = be64 (BitVec.ofNat 64 (8 * b.length)) ∧
    (padded b).length = 64 * blockCount b.length ∧ b.length + 1 + 8 ≤ (padded b).length ∧
    (∀ n, b.length + 1 + 8 ≤ 64 * n → (padded b).length ≤ 64 * n) ∧
    blockCount b.length = (b.length + 8) / 64 + 1)

/-- R107, R109 and R110: an input of L bytes gives blockCount L blocks, at least one; word t of block j is the big-endian
composition of bytes 64j + 4t to 64j + 4t + 3 of the padded buffer; and words 14 and 15 of the last block are
B div 2^32 and B mod 2^32, B = 8·L. -/
def Obligations.BlocksAreBigEndianWords : Prop :=
  ∀ b : List Byte, b.length < 2 ^ 61 →
    (messageBlocks b).length = blockCount b.length ∧ 1 ≤ blockCount b.length ∧
    (∀ (j : Nat) (t : Fin 16) (hj : j < (messageBlocks b).length),
      ((messageBlocks b)[j])[t.val].toNat =
        2 ^ 24 * (byteAt (padded b) (64 * j + 4 * t.val)).toNat +
        2 ^ 16 * (byteAt (padded b) (64 * j + 4 * t.val + 1)).toNat +
        2 ^ 8 * (byteAt (padded b) (64 * j + 4 * t.val + 2)).toNat +
        (byteAt (padded b) (64 * j + 4 * t.val + 3)).toNat) ∧
    (∀ hj : blockCount b.length - 1 < (messageBlocks b).length,
      ((messageBlocks b)[blockCount b.length - 1])[14].toNat = 8 * b.length / 2 ^ 32 ∧
      ((messageBlocks b)[blockCount b.length - 1])[15].toNat = 8 * b.length % 2 ^ 32)

/-- R105: an unpaired surrogate, the first one at index k, makes the whole digest fail with EncodingError(k), and so does a
scalar input with a value that is no scalar; no digest is produced and the engine is not touched. -/
def Obligations.UnpairedSurrogateFailsTheDigest : Prop :=
  (∀ (pre : List CodeUnit) (b : List Byte) (u : CodeUnit) (rest : List CodeUnit), utf8Units pre = .ok b →
    (isHighSurrogate u = true ∧ (∀ v ∈ rest.head?, isLowSurrogate v = false)) ∨ isLowSurrogate u = true →
    ∀ s : SharedEngine, digest (.units (pre ++ u :: rest)) s = .next (.error (.encodingError pre.length), s)) ∧
  (∀ (pre : List Nat) (b : List Byte) (cp : Nat) (rest : List Nat), utf8Scalars pre = .ok b →
    (0xD800 ≤ cp ∧ cp ≤ 0xDFFF) ∨ 0x10FFFF < cp →
    ∀ s : SharedEngine, digest (.scalars (pre ++ cp :: rest)) s = .next (.error (.encodingError pre.length), s))

/-- R112: the digest is 64 characters of 0123456789abcdef, hex8(h[0]) to hex8(h[7]) in order, the nibbles of a word from
w[31:28] down to w[3:0], leading zeros kept. -/
def Obligations.SerializedDigestForm : Prop :=
  ∀ h : Vector Word 8, (serialize h).length = 64 ∧
    (∀ (i : Fin 8) (k : Fin 8),
      (serialize h)[8 * i.val + k.val]? =
        ['0', '1', '2', '3', '4', '5', '6', '7', '8', '9', 'a', 'b', 'c', 'd', 'e', 'f'][
          h[i.val].toNat / 2 ^ (28 - 4 * k.val) % 16]?) ∧
    (∀ c ∈ serialize h, c ∈ ['0', '1', '2', '3', '4', '5', '6', '7', '8', '9', 'a', 'b', 'c', 'd', 'e', 'f'])

/-- R111, R114: the driver's digest procedure on one engine, of an input of fewer than 2^61 bytes. From every state of the
engine, BUSY or not, with its STATUS error bits set or not, whatever its registers hold, whatever stands on its bus before
the first transaction, and whatever LAT_COMPRESS and the free numbers of host turns are (log entries 1 and 2), while the
other masters only read (R115), it ends with the serialization of the compression of the input's blocks in message order
from IV, and under a clean STATUS, because the driver clears STATUS first (R134 (3), log entry 11). Whatever the other
masters do (R58), it ends with a digest of a run that found a clean STATUS; a discarded run is recomputed; and `poll`
(R71) ends with BUSY = 0. -/
def Obligations.DriverDigestsOnTheEngine : Prop :=
  (∀ (bytes : List Byte) (b : SharedEngine), bytes.length < 2 ^ 61 → (∀ evs ∈ b.others, OnlyReads evs) →
    ∃ t, digest (.bytes bytes) b = .next (.ok (serialize (digestWords bytes)), t) ∧
      t.engine.h = digestWords bytes ∧ t.engine.busy = false ∧ t.engine.queue = [] ∧ Clean t.engine) ∧
  (∀ (bytes : List Byte) (b : SharedEngine), bytes.length < 2 ^ 61 →
    ∃ d t, digest (.bytes bytes) b = .next (.ok d, t) ∧ Clean t.engine) ∧
  (∀ (bytes : List Byte) (b t : SharedEngine), bytes.length < 2 ^ 61 →
    digestRun (messageBlocks bytes) b = .next (.error .discarded, t) →
    digest (.bytes bytes) b = digest (.bytes bytes) t) ∧
  (∀ b : SharedEngine, ∃ t, poll b = .next t ∧ t.engine.busy = false)

/-! ## Several engines -/

/-- R40 and R130 (and R38): an access at an address outside an engine's window does not reach it; no two engines of a
well-formed platform see one access; and a step of one engine changes no other. -/
def Obligations.EnginesAreIndependent : Prop :=
  (∀ (e : EngineAt) (addr : Nat) (a : Access), addr < e.base ∨ e.base + 0x100 ≤ addr → e.arrive addr a = e) ∧
  (∀ (e : EngineAt) (addr : Nat) (a : Access), e.base ≤ addr → addr < e.base + 0x100 →
    (e.arrive addr a).engine.queue = e.engine.queue ++ [a.at (BitVec.ofNat 8 (addr - e.base))]) ∧
  (∀ (p : Platform) (addr j k : Nat) (a : Access) (e f : EngineAt), p.wf → p[j]? = some e → p[k]? = some f → j ≠ k →
    e.arrive addr a ≠ e → f.arrive addr a = f) ∧
  (∀ (p p' : Platform) (j k : Nat), p.stepAt k = some p' → j ≠ k → p'[j]? = p[j]?)
end

