-- ==== Sys2Proof/Laws/State.lean ====
section
/-! SUPPORT. One lemma per field of `State` for every named update of it, each true by definition, so that no proof unfolds
a record update. -/

namespace Sys2Proof.Machine

@[simp] theorem setRes_opa (v : Word) (s : State) : (setRes v s).opa = s.opa := rfl
@[simp] theorem setRes_opb (v : Word) (s : State) : (setRes v s).opb = s.opb := rfl
@[simp] theorem setRes_opc (v : Word) (s : State) : (setRes v s).opc = s.opc := rfl
@[simp] theorem setRes_opd (v : Word) (s : State) : (setRes v s).opd = s.opd := rfl
@[simp] theorem setRes_res (v : Word) (s : State) : (setRes v s).res = v := rfl
@[simp] theorem setRes_busy (v : Word) (s : State) : (setRes v s).busy = s.busy := rfl
@[simp] theorem setRes_done (v : Word) (s : State) : (setRes v s).done = s.done := rfl
@[simp] theorem setRes_errBusy (v : Word) (s : State) : (setRes v s).errBusy = s.errBusy := rfl
@[simp] theorem setRes_errCmd (v : Word) (s : State) : (setRes v s).errCmd = s.errCmd := rfl
@[simp] theorem setRes_m (v : Word) (s : State) : (setRes v s).m = s.m := rfl
@[simp] theorem setRes_h (v : Word) (s : State) : (setRes v s).h = s.h := rfl
@[simp] theorem setRes_seq (v : Word) (s : State) : (setRes v s).seq = s.seq := rfl
@[simp] theorem setRes_cyclesLeft (v : Word) (s : State) : (setRes v s).cyclesLeft = s.cyclesLeft := rfl
@[simp] theorem setRes_hostTurns (v : Word) (s : State) : (setRes v s).hostTurns = s.hostTurns := rfl
@[simp] theorem setRes_freeCtr (v : Word) (s : State) : (setRes v s).freeCtr = s.freeCtr := rfl
@[simp] theorem setRes_queue (v : Word) (s : State) : (setRes v s).queue = s.queue := rfl
@[simp] theorem setRes_responses (v : Word) (s : State) : (setRes v s).responses = s.responses := rfl

@[simp] theorem flagErrBusy_opa (s : State) : (flagErrBusy s).opa = s.opa := rfl
@[simp] theorem flagErrBusy_opb (s : State) : (flagErrBusy s).opb = s.opb := rfl
@[simp] theorem flagErrBusy_opc (s : State) : (flagErrBusy s).opc = s.opc := rfl
@[simp] theorem flagErrBusy_opd (s : State) : (flagErrBusy s).opd = s.opd := rfl
@[simp] theorem flagErrBusy_res (s : State) : (flagErrBusy s).res = s.res := rfl
@[simp] theorem flagErrBusy_busy (s : State) : (flagErrBusy s).busy = s.busy := rfl
@[simp] theorem flagErrBusy_done (s : State) : (flagErrBusy s).done = s.done := rfl
@[simp] theorem flagErrBusy_errBusy (s : State) : (flagErrBusy s).errBusy = true := rfl
@[simp] theorem flagErrBusy_errCmd (s : State) : (flagErrBusy s).errCmd = s.errCmd := rfl
@[simp] theorem flagErrBusy_m (s : State) : (flagErrBusy s).m = s.m := rfl
@[simp] theorem flagErrBusy_h (s : State) : (flagErrBusy s).h = s.h := rfl
@[simp] theorem flagErrBusy_seq (s : State) : (flagErrBusy s).seq = s.seq := rfl
@[simp] theorem flagErrBusy_cyclesLeft (s : State) : (flagErrBusy s).cyclesLeft = s.cyclesLeft := rfl
@[simp] theorem flagErrBusy_hostTurns (s : State) : (flagErrBusy s).hostTurns = s.hostTurns := rfl
@[simp] theorem flagErrBusy_freeCtr (s : State) : (flagErrBusy s).freeCtr = s.freeCtr := rfl
@[simp] theorem flagErrBusy_queue (s : State) : (flagErrBusy s).queue = s.queue := rfl
@[simp] theorem flagErrBusy_responses (s : State) : (flagErrBusy s).responses = s.responses := rfl

@[simp] theorem flagErrCmd_opa (s : State) : (flagErrCmd s).opa = s.opa := rfl
@[simp] theorem flagErrCmd_opb (s : State) : (flagErrCmd s).opb = s.opb := rfl
@[simp] theorem flagErrCmd_opc (s : State) : (flagErrCmd s).opc = s.opc := rfl
@[simp] theorem flagErrCmd_opd (s : State) : (flagErrCmd s).opd = s.opd := rfl
@[simp] theorem flagErrCmd_res (s : State) : (flagErrCmd s).res = s.res := rfl
@[simp] theorem flagErrCmd_busy (s : State) : (flagErrCmd s).busy = s.busy := rfl
@[simp] theorem flagErrCmd_done (s : State) : (flagErrCmd s).done = s.done := rfl
@[simp] theorem flagErrCmd_errBusy (s : State) : (flagErrCmd s).errBusy = s.errBusy := rfl
@[simp] theorem flagErrCmd_errCmd (s : State) : (flagErrCmd s).errCmd = true := rfl
@[simp] theorem flagErrCmd_m (s : State) : (flagErrCmd s).m = s.m := rfl
@[simp] theorem flagErrCmd_h (s : State) : (flagErrCmd s).h = s.h := rfl
@[simp] theorem flagErrCmd_seq (s : State) : (flagErrCmd s).seq = s.seq := rfl
@[simp] theorem flagErrCmd_cyclesLeft (s : State) : (flagErrCmd s).cyclesLeft = s.cyclesLeft := rfl
@[simp] theorem flagErrCmd_hostTurns (s : State) : (flagErrCmd s).hostTurns = s.hostTurns := rfl
@[simp] theorem flagErrCmd_freeCtr (s : State) : (flagErrCmd s).freeCtr = s.freeCtr := rfl
@[simp] theorem flagErrCmd_queue (s : State) : (flagErrCmd s).queue = s.queue := rfl
@[simp] theorem flagErrCmd_responses (s : State) : (flagErrCmd s).responses = s.responses := rfl

@[simp] theorem writeStatus_opa (v : Word) (s : State) : (writeStatus v s).opa = s.opa := rfl
@[simp] theorem writeStatus_opb (v : Word) (s : State) : (writeStatus v s).opb = s.opb := rfl
@[simp] theorem writeStatus_opc (v : Word) (s : State) : (writeStatus v s).opc = s.opc := rfl
@[simp] theorem writeStatus_opd (v : Word) (s : State) : (writeStatus v s).opd = s.opd := rfl
@[simp] theorem writeStatus_res (v : Word) (s : State) : (writeStatus v s).res = s.res := rfl
@[simp] theorem writeStatus_busy (v : Word) (s : State) : (writeStatus v s).busy = s.busy := rfl
@[simp] theorem writeStatus_done (v : Word) (s : State) : (writeStatus v s).done = (s.done && !v.getLsbD 1) := rfl
@[simp] theorem writeStatus_errBusy (v : Word) (s : State) : (writeStatus v s).errBusy = (s.errBusy && !v.getLsbD 2) := rfl
@[simp] theorem writeStatus_errCmd (v : Word) (s : State) : (writeStatus v s).errCmd = (s.errCmd && !v.getLsbD 3) := rfl
@[simp] theorem writeStatus_m (v : Word) (s : State) : (writeStatus v s).m = s.m := rfl
@[simp] theorem writeStatus_h (v : Word) (s : State) : (writeStatus v s).h = s.h := rfl
@[simp] theorem writeStatus_seq (v : Word) (s : State) : (writeStatus v s).seq = s.seq := rfl
@[simp] theorem writeStatus_cyclesLeft (v : Word) (s : State) : (writeStatus v s).cyclesLeft = s.cyclesLeft := rfl
@[simp] theorem writeStatus_hostTurns (v : Word) (s : State) : (writeStatus v s).hostTurns = s.hostTurns := rfl
@[simp] theorem writeStatus_freeCtr (v : Word) (s : State) : (writeStatus v s).freeCtr = s.freeCtr := rfl
@[simp] theorem writeStatus_queue (v : Word) (s : State) : (writeStatus v s).queue = s.queue := rfl
@[simp] theorem writeStatus_responses (v : Word) (s : State) : (writeStatus v s).responses = s.responses := rfl

@[simp] theorem reloadIV_opa (s : State) : (reloadIV s).opa = s.opa := rfl
@[simp] theorem reloadIV_opb (s : State) : (reloadIV s).opb = s.opb := rfl
@[simp] theorem reloadIV_opc (s : State) : (reloadIV s).opc = s.opc := rfl
@[simp] theorem reloadIV_opd (s : State) : (reloadIV s).opd = s.opd := rfl
@[simp] theorem reloadIV_res (s : State) : (reloadIV s).res = s.res := rfl
@[simp] theorem reloadIV_busy (s : State) : (reloadIV s).busy = s.busy := rfl
@[simp] theorem reloadIV_done (s : State) : (reloadIV s).done = s.done := rfl
@[simp] theorem reloadIV_errBusy (s : State) : (reloadIV s).errBusy = s.errBusy := rfl
@[simp] theorem reloadIV_errCmd (s : State) : (reloadIV s).errCmd = s.errCmd := rfl
@[simp] theorem reloadIV_m (s : State) : (reloadIV s).m = s.m := rfl
@[simp] theorem reloadIV_h (s : State) : (reloadIV s).h = IV := rfl
@[simp] theorem reloadIV_seq (s : State) : (reloadIV s).seq = s.seq := rfl
@[simp] theorem reloadIV_cyclesLeft (s : State) : (reloadIV s).cyclesLeft = s.cyclesLeft := rfl
@[simp] theorem reloadIV_hostTurns (s : State) : (reloadIV s).hostTurns = s.hostTurns := rfl
@[simp] theorem reloadIV_freeCtr (s : State) : (reloadIV s).freeCtr = s.freeCtr := rfl
@[simp] theorem reloadIV_queue (s : State) : (reloadIV s).queue = s.queue := rfl
@[simp] theorem reloadIV_responses (s : State) : (reloadIV s).responses = s.responses := rfl

@[simp] theorem acceptCompress_opa (s : State) : (acceptCompress s).opa = s.opa := rfl
@[simp] theorem acceptCompress_opb (s : State) : (acceptCompress s).opb = s.opb := rfl
@[simp] theorem acceptCompress_opc (s : State) : (acceptCompress s).opc = s.opc := rfl
@[simp] theorem acceptCompress_opd (s : State) : (acceptCompress s).opd = s.opd := rfl
@[simp] theorem acceptCompress_res (s : State) : (acceptCompress s).res = s.res := rfl
@[simp] theorem acceptCompress_busy (s : State) : (acceptCompress s).busy = true := rfl
@[simp] theorem acceptCompress_done (s : State) : (acceptCompress s).done = false := rfl
@[simp] theorem acceptCompress_errBusy (s : State) : (acceptCompress s).errBusy = s.errBusy := rfl
@[simp] theorem acceptCompress_errCmd (s : State) : (acceptCompress s).errCmd = s.errCmd := rfl
@[simp] theorem acceptCompress_m (s : State) : (acceptCompress s).m = s.m := rfl
@[simp] theorem acceptCompress_h (s : State) : (acceptCompress s).h = s.h := rfl
@[simp] theorem acceptCompress_seq (s : State) : (acceptCompress s).seq = { s.seq with phase := .schedule, round := 0 } := rfl
@[simp] theorem acceptCompress_cyclesLeft (s : State) : (acceptCompress s).cyclesLeft = Config.latCompress := rfl
@[simp] theorem acceptCompress_hostTurns (s : State) : (acceptCompress s).hostTurns = Config.hostTurns s.freeCtr := rfl
@[simp] theorem acceptCompress_freeCtr (s : State) : (acceptCompress s).freeCtr = s.freeCtr + 1 := rfl
@[simp] theorem acceptCompress_queue (s : State) : (acceptCompress s).queue = s.queue := rfl
@[simp] theorem acceptCompress_responses (s : State) : (acceptCompress s).responses = s.responses := rfl

@[simp] theorem complete_opa (s : State) : (complete s).opa = s.opa := rfl
@[simp] theorem complete_opb (s : State) : (complete s).opb = s.opb := rfl
@[simp] theorem complete_opc (s : State) : (complete s).opc = s.opc := rfl
@[simp] theorem complete_opd (s : State) : (complete s).opd = s.opd := rfl
@[simp] theorem complete_res (s : State) : (complete s).res = s.res := rfl
@[simp] theorem complete_busy (s : State) : (complete s).busy = false := rfl
@[simp] theorem complete_done (s : State) : (complete s).done = true := rfl
@[simp] theorem complete_errBusy (s : State) : (complete s).errBusy = s.errBusy := rfl
@[simp] theorem complete_errCmd (s : State) : (complete s).errCmd = s.errCmd := rfl
@[simp] theorem complete_m (s : State) : (complete s).m = s.m := rfl
@[simp] theorem complete_h (s : State) : (complete s).h = compress s.h s.m := rfl
@[simp] theorem complete_seq (s : State) : (complete s).seq = freeSequencer s.freeCtr := rfl
@[simp] theorem complete_cyclesLeft (s : State) : (complete s).cyclesLeft = 0 := rfl
@[simp] theorem complete_hostTurns (s : State) : (complete s).hostTurns = s.hostTurns := rfl
@[simp] theorem complete_freeCtr (s : State) : (complete s).freeCtr = s.freeCtr + 1 := rfl
@[simp] theorem complete_queue (s : State) : (complete s).queue = s.queue := rfl
@[simp] theorem complete_responses (s : State) : (complete s).responses = s.responses := rfl

@[simp] theorem applyReset_opa (s : State) : (applyReset s).opa = 0 := rfl
@[simp] theorem applyReset_opb (s : State) : (applyReset s).opb = 0 := rfl
@[simp] theorem applyReset_opc (s : State) : (applyReset s).opc = 0 := rfl
@[simp] theorem applyReset_opd (s : State) : (applyReset s).opd = 0 := rfl
@[simp] theorem applyReset_res (s : State) : (applyReset s).res = 0 := rfl
@[simp] theorem applyReset_busy (s : State) : (applyReset s).busy = false := rfl
@[simp] theorem applyReset_done (s : State) : (applyReset s).done = false := rfl
@[simp] theorem applyReset_errBusy (s : State) : (applyReset s).errBusy = false := rfl
@[simp] theorem applyReset_errCmd (s : State) : (applyReset s).errCmd = false := rfl
@[simp] theorem applyReset_m (s : State) : (applyReset s).m = Vector.replicate 16 0 := rfl
@[simp] theorem applyReset_h (s : State) : (applyReset s).h = IV := rfl
@[simp] theorem applyReset_seq (s : State) : (applyReset s).seq = freeSequencer s.freeCtr := rfl
@[simp] theorem applyReset_cyclesLeft (s : State) : (applyReset s).cyclesLeft = 0 := rfl
@[simp] theorem applyReset_hostTurns (s : State) : (applyReset s).hostTurns = s.hostTurns := rfl
@[simp] theorem applyReset_freeCtr (s : State) : (applyReset s).freeCtr = s.freeCtr + 1 := rfl
@[simp] theorem applyReset_queue (s : State) : (applyReset s).queue = s.queue := rfl
@[simp] theorem applyReset_responses (s : State) : (applyReset s).responses = s.responses := rfl

@[simp] theorem respond_opa (r : Response) (s : State) : (respond r s).opa = s.opa := rfl
@[simp] theorem respond_opb (r : Response) (s : State) : (respond r s).opb = s.opb := rfl
@[simp] theorem respond_opc (r : Response) (s : State) : (respond r s).opc = s.opc := rfl
@[simp] theorem respond_opd (r : Response) (s : State) : (respond r s).opd = s.opd := rfl
@[simp] theorem respond_res (r : Response) (s : State) : (respond r s).res = s.res := rfl
@[simp] theorem respond_busy (r : Response) (s : State) : (respond r s).busy = s.busy := rfl
@[simp] theorem respond_done (r : Response) (s : State) : (respond r s).done = s.done := rfl
@[simp] theorem respond_errBusy (r : Response) (s : State) : (respond r s).errBusy = s.errBusy := rfl
@[simp] theorem respond_errCmd (r : Response) (s : State) : (respond r s).errCmd = s.errCmd := rfl
@[simp] theorem respond_m (r : Response) (s : State) : (respond r s).m = s.m := rfl
@[simp] theorem respond_h (r : Response) (s : State) : (respond r s).h = s.h := rfl
@[simp] theorem respond_seq (r : Response) (s : State) : (respond r s).seq = s.seq := rfl
@[simp] theorem respond_cyclesLeft (r : Response) (s : State) : (respond r s).cyclesLeft = s.cyclesLeft := rfl
@[simp] theorem respond_hostTurns (r : Response) (s : State) : (respond r s).hostTurns = s.hostTurns := rfl
@[simp] theorem respond_freeCtr (r : Response) (s : State) : (respond r s).freeCtr = s.freeCtr := rfl
@[simp] theorem respond_queue (r : Response) (s : State) : (respond r s).queue = s.queue := rfl
@[simp] theorem respond_responses (r : Response) (s : State) : (respond r s).responses = r :: s.responses := rfl

@[simp] theorem takeEvent_opa (rest : List BusEvent) (s : State) : (takeEvent rest s).opa = s.opa := rfl
@[simp] theorem takeEvent_opb (rest : List BusEvent) (s : State) : (takeEvent rest s).opb = s.opb := rfl
@[simp] theorem takeEvent_opc (rest : List BusEvent) (s : State) : (takeEvent rest s).opc = s.opc := rfl
@[simp] theorem takeEvent_opd (rest : List BusEvent) (s : State) : (takeEvent rest s).opd = s.opd := rfl
@[simp] theorem takeEvent_res (rest : List BusEvent) (s : State) : (takeEvent rest s).res = s.res := rfl
@[simp] theorem takeEvent_busy (rest : List BusEvent) (s : State) : (takeEvent rest s).busy = s.busy := rfl
@[simp] theorem takeEvent_done (rest : List BusEvent) (s : State) : (takeEvent rest s).done = s.done := rfl
@[simp] theorem takeEvent_errBusy (rest : List BusEvent) (s : State) : (takeEvent rest s).errBusy = s.errBusy := rfl
@[simp] theorem takeEvent_errCmd (rest : List BusEvent) (s : State) : (takeEvent rest s).errCmd = s.errCmd := rfl
@[simp] theorem takeEvent_m (rest : List BusEvent) (s : State) : (takeEvent rest s).m = s.m := rfl
@[simp] theorem takeEvent_h (rest : List BusEvent) (s : State) : (takeEvent rest s).h = s.h := rfl
@[simp] theorem takeEvent_seq (rest : List BusEvent) (s : State) : (takeEvent rest s).seq = s.seq := rfl
@[simp] theorem takeEvent_cyclesLeft (rest : List BusEvent) (s : State) : (takeEvent rest s).cyclesLeft = s.cyclesLeft := rfl
@[simp] theorem takeEvent_hostTurns (rest : List BusEvent) (s : State) : (takeEvent rest s).hostTurns = s.hostTurns - 1 := rfl
@[simp] theorem takeEvent_freeCtr (rest : List BusEvent) (s : State) : (takeEvent rest s).freeCtr = s.freeCtr := rfl
@[simp] theorem takeEvent_queue (rest : List BusEvent) (s : State) : (takeEvent rest s).queue = rest := rfl
@[simp] theorem takeEvent_responses (rest : List BusEvent) (s : State) : (takeEvent rest s).responses = s.responses := rfl

end Sys2Proof.Machine
end

