-- ==== Sys2Proof/Laws/Compression.lean ====
section
/-! SUPPORT. The expander and the rounds as loops: what one more iteration changes, and that the content W held before a
compression does not matter (R33, R78). -/

namespace Sys2Proof.Machine

/-- Two schedules are equal when their entries are. -/
theorem schedule_ext {w w' : Vector Word 64} (h : ∀ i : Fin 64, w[i.val] = w'[i.val]) : w = w' :=
  Vector.ext (fun i hi => h ⟨i, hi⟩)

/-- The value R78 gives W[i] reads earlier entries only. -/
theorem scheduleWord_congr (m : Vector Word 16) {w w' : Vector Word 64} (i : Fin 64)
    (h : ∀ j : Fin 64, j.val < i.val → w[j.val] = w'[j.val]) : scheduleWord m w i = scheduleWord m w' i := by
  unfold scheduleWord
  split
  · rfl
  · rw [h ⟨i.val - 2, by omega⟩ (by simp; omega), h ⟨i.val - 7, by omega⟩ (by simp; omega),
      h ⟨i.val - 15, by omega⟩ (by simp; omega), h ⟨i.val - 16, by omega⟩ (by simp; omega)]

theorem scheduleUpTo_succ (m : Vector Word 16) (w : Vector Word 64) {n : Nat} (hn : n < 64) :
    scheduleUpTo m w (n + 1) = scheduleStep m (scheduleUpTo m w n) ⟨n, hn⟩ := by
  simp [scheduleUpTo, hn]

theorem roundsUpTo_succ (w : Vector Word 64) (v : Vars) {n : Nat} (hn : n < 64) :
    roundsUpTo w v (n + 1) = roundStep w (roundsUpTo w v n) ⟨n, hn⟩ := by
  simp [roundsUpTo, hn]

theorem scheduleStep_getElem (m : Vector Word 16) (w : Vector Word 64) (i j : Fin 64) :
    (scheduleStep m w i)[j.val] = if i = j then scheduleWord m w i else w[j.val] := by
  simp [scheduleStep, Vector.getElem_set, Fin.ext_iff]

/-- An entry keeps its value once its iteration is over. -/
theorem scheduleUpTo_stable (m : Vector Word 16) (w : Vector Word 64) (j : Fin 64) {n k : Nat} (hj : j.val < n)
    (hk : n ≤ k) : (scheduleUpTo m w k)[j.val] = (scheduleUpTo m w n)[j.val] := by
  induction k, hk using Nat.le_induction with
  | base => rfl
  | succ k hk ih =>
    by_cases h : k < 64
    · rw [scheduleUpTo_succ m w h, scheduleStep_getElem, if_neg (by rw [Fin.ext_iff]; simp; omega), ih]
    · simpa [scheduleUpTo, h] using ih

/-- The first n entries after n iterations do not depend on what W held before. -/
theorem scheduleUpTo_congr (m : Vector Word 16) (w w' : Vector Word 64) (n : Nat) (j : Fin 64) (hj : j.val < n) :
    (scheduleUpTo m w n)[j.val] = (scheduleUpTo m w' n)[j.val] := by
  induction n generalizing j with
  | zero => omega
  | succ n ih =>
    by_cases h : n < 64
    · rw [scheduleUpTo_succ m w h, scheduleUpTo_succ m w' h, scheduleStep_getElem, scheduleStep_getElem]
      split_ifs with hij
      · exact scheduleWord_congr m _ (fun k hk => ih k hk)
      · exact ih j (by rw [Fin.ext_iff] at hij; simp at hij; omega)
    · simp only [scheduleUpTo, h, dite_false]; exact ih j (by omega)

/-- A finished schedule satisfies R78's equation at every entry. -/
theorem expand_getElem (m : Vector Word 16) (i : Fin 64) : (expand m)[i.val] = scheduleWord m (expand m) i := by
  unfold expand
  rw [scheduleUpTo_stable m _ i (n := i.val + 1) (by omega) (by omega), scheduleUpTo_succ m _ i.isLt,
    scheduleStep_getElem, if_pos rfl]
  exact scheduleWord_congr m i (fun j hj => (scheduleUpTo_stable m _ j hj (by omega)).symm)

end Sys2Proof.Machine
end

