-- ==== Sys2Proof/Laws/Ops.lean ====
section
/-! SUPPORT. For each shared operation of Machine/Ops.lean, Machine/Bus.lean and the step, one lemma that says everything it
can answer; later proofs cite these and unfold nothing. -/

namespace Sys2Proof.Machine

/-! ### Commands -/

theorem command_of_idle (f : State → State) {s : State} (hb : s.busy = false) : command f s = .next (f s) := by
  simp [command, hb]

theorem command_of_busy (f : State → State) {s : State} (hb : s.busy = true) : command f s = .next (flagErrBusy s) := by
  simp [command, hb]

/-- The state an accepted command leaves (R66). -/
def effect (i : Instr) (s : State) : State :=
  match i with
  | .nop => s
  | .init => reloadIV s
  | .compress => acceptCompress s
  | .krd imm => setRes K[(tableIndex imm).val] s
  | .rotr imm => if shiftInRange imm then setRes (rotr s.opa imm.toNat) s else flagErrCmd s
  | .shr imm => if shiftInRange imm then setRes (shr s.opa imm.toNat) s else flagErrCmd s
  | .add => setRes (s.opa + s.opb) s
  | .ssig0 => setRes (ssig0 s.opa) s
  | .ssig1 => setRes (ssig1 s.opa) s
  | .bsig0 => setRes (bsig0 s.opa) s
  | .bsig1 => setRes (bsig1 s.opa) s
  | .ch => setRes (ch s.opa s.opb s.opc) s
  | .maj => setRes (maj s.opa s.opb s.opc) s
  | .wstep => setRes (wstep s.opa s.opb s.opc s.opd) s
  | .t1p => setRes (t1p s.opa s.opb s.opc s.opd) s
  | .t2 => setRes (t2 s.opa s.opb s.opc) s

/-- Every command is `command` over its effect. -/
theorem exec_eq_command (i : Instr) (s : State) : exec i s = command (effect i) s := by
  cases i <;> try rfl
  all_goals
    simp only [exec, execRotr, execShr, shiftPrimitive, command, shiftAmount, effect]
    split_ifs <;> rfl

/-- Everything `exec` can answer: with BUSY = 1 the rejection, with BUSY = 0 the command's effect; never a stop. -/
theorem exec_eq (i : Instr) (s : State) : exec i s = .next (if s.busy then flagErrBusy s else effect i s) := by
  rw [exec_eq_command, command]; split_ifs <;> rfl

/-- Everything a command's effect can be. -/
theorem effect_cases (i : Instr) (s : State) :
    (i = .nop ∧ effect i s = s) ∨ (i = .init ∧ effect i s = reloadIV s) ∨
    (i = .compress ∧ effect i s = acceptCompress s) ∨
    (writesRes i = true ∧ ∃ v, effect i s = setRes v s) ∨ (i.wf = false ∧ effect i s = flagErrCmd s) := by
  cases i
  case nop => exact .inl ⟨rfl, rfl⟩
  case init => exact .inr (.inl ⟨rfl, rfl⟩)
  case compress => exact .inr (.inr (.inl ⟨rfl, rfl⟩))
  case rotr imm =>
    cases h : shiftInRange imm
    · exact .inr (.inr (.inr (.inr ⟨h, by simp [effect, h]⟩)))
    · exact .inr (.inr (.inr (.inl ⟨rfl, _, by simp only [effect, h]; rfl⟩)))
  case shr imm =>
    cases h : shiftInRange imm
    · exact .inr (.inr (.inr (.inr ⟨h, by simp [effect, h]⟩)))
    · exact .inr (.inr (.inr (.inl ⟨rfl, _, by simp only [effect, h]; rfl⟩)))
  all_goals exact .inr (.inr (.inr (.inl ⟨rfl, _, rfl⟩)))

/-! ### Writes -/

/-- The state `Execute(v)` leaves with BUSY = 0 (R66). -/
def executed (v : Word) (s : State) : State :=
  match decode v with
  | .ok i => effect i s
  | .error _ => flagErrCmd s

theorem execute_of_idle (v : Word) {s : State} (hb : s.busy = false) : execute v s = .next (executed v s) := by
  unfold execute executed
  cases decode v <;> simp [exec_eq, hb]

/-- The state a legal write of v to register r leaves with BUSY = 0 (R44). -/
def written (r : Reg) (v : Word) (s : State) : State :=
  match r with
  | .id | .version | .res => s
  | .status => writeStatus v s
  | .cmd => executed v s
  | .opa => { s with opa := v }
  | .opb => { s with opb := v }
  | .opc => { s with opc := v }
  | .opd => { s with opd := v }
  | .m j => { s with m := s.m.set j.val v }
  | .h i => { s with h := s.h.set i.val v }

/-- Everything a write to a register can answer: the rejection when BUSY gates it, else the write; never a stop. -/
theorem writeReg_eq (r : Reg) (v : Word) (s : State) :
    writeReg r v s = .next (if s.busy && r.gatedByBusy then flagErrBusy s else written r v s) := by
  cases hb : s.busy <;> cases r <;> simp [writeReg, gated, hb, written, Reg.gatedByBusy, execute_of_idle]

theorem memWrite_eq (off : BitVec 8) (n : Nat) (v : Word) (s : State) :
    memWrite off n v s = match target off n with
      | some r => .next (if s.busy && r.gatedByBusy then flagErrBusy s else written r v s)
      | none => .next s := by
  unfold memWrite; split <;> simp_all [writeReg_eq]

/-- The state an event leaves (R43, R44, R131). -/
def performed (ev : BusEvent) (s : State) : State :=
  match ev with
  | .read off n => respond (memRead off n s) s
  | .write off n v =>
    match target off n with
    | some r =>
      if s.busy && r.gatedByBusy then flagErrBusy (respond .done s) else written r v (respond .done s)
    | none => respond (.busError off) s
  | .reset => applyReset s

theorem perform_eq (ev : BusEvent) (s : State) : perform ev s = .next (performed ev s) := by
  cases ev with
  | read off n => rfl
  | reset => rfl
  | write off n v =>
    simp only [perform, memWrite_eq, writeResponse, performed]
    cases target off n <;> simp

/-! ### The step -/

theorem hostMoves_of_hostTurn {s : State} {ev : BusEvent} {rest : List BusEvent} (h : HostTurn s ev rest) :
    hostMoves s = true := by
  obtain ⟨hq, ht⟩ := h
  cases hb : s.busy <;> simp_all [hostMoves]

theorem hostMoves_of_engineTurn {s : State} (h : EngineTurn s) : hostMoves s = false := by
  obtain ⟨hb, hq | ht⟩ := h <;> simp [hostMoves, *]

theorem step_of_hostTurn {s : State} {ev : BusEvent} {rest : List BusEvent} (h : HostTurn s ev rest) :
    step s = .next (performed ev (takeEvent rest s)) := by
  simp [step, move, hostMoves_of_hostTurn h, hostStep, h.1, perform_eq]

theorem step_of_engineTurn {s : State} (h : EngineTurn s) : step s = .next (engineCycle s) := by
  simp [step, move, hostMoves_of_engineTurn h, h.1]

theorem step_of_idleTurn {s : State} (h : IdleTurn s) : step s = .next s := by
  simp [step, move, hostMoves, h.1, h.2]

/-- In every state exactly one agent moves, or none has anything to do. -/
theorem turn_cases (s : State) : (∃ ev rest, HostTurn s ev rest) ∨ EngineTurn s ∨ IdleTurn s := by
  cases hq : s.queue <;> cases hb : s.busy <;> by_cases ht : s.hostTurns = 0 <;>
    simp [HostTurn, EngineTurn, IdleTurn, hq, hb, ht]

/-- Everything a step can do. -/
theorem step_cases {s t : State} (h : step s = .next t) :
    (∃ ev rest, HostTurn s ev rest ∧ t = performed ev (takeEvent rest s)) ∨
    (EngineTurn s ∧ t = engineCycle s) ∨ (IdleTurn s ∧ t = s) := by
  obtain ⟨ev, rest, hh⟩ | he | hi := turn_cases s
  · rw [step_of_hostTurn hh] at h; cases h; exact .inl ⟨ev, rest, hh, rfl⟩
  · rw [step_of_engineTurn he] at h; cases h; exact .inr (.inl ⟨he, rfl⟩)
  · rw [step_of_idleTurn hi] at h; cases h; exact .inr (.inr ⟨hi, rfl⟩)

/-- Everything an engine cycle can do: complete, or one hidden micro-step. -/
theorem engineCycle_cases (s : State) :
    (s.cyclesLeft ≤ 1 ∧ engineCycle s = complete s) ∨
    (1 < s.cyclesLeft ∧ engineCycle s =
      { s with seq := tick s.m s.h s.seq, cyclesLeft := s.cyclesLeft - 1,
               hostTurns := Config.hostTurns s.freeCtr, freeCtr := s.freeCtr + 1 }) := by
  unfold engineCycle; split_ifs with h
  · exact .inl ⟨h, rfl⟩
  · exact .inr ⟨by omega, rfl⟩

/-- Everything an event's performance can be, in terms of the named updates. -/
theorem performed_write_cases (off : BitVec 8) (n : Nat) (v : Word) (s : State) :
    (target off n = none ∧ performed (.write off n v) s = respond (.busError off) s) ∨
    (∃ r, target off n = some r ∧ s.busy = true ∧ r.gatedByBusy = true ∧
      performed (.write off n v) s = flagErrBusy (respond .done s)) ∨
    (∃ r, target off n = some r ∧ (s.busy = true → r.gatedByBusy = false) ∧
      performed (.write off n v) s = written r v (respond .done s)) := by
  simp only [performed]
  cases ht : target off n with
  | none => simp
  | some r => cases hb : s.busy <;> cases hg : r.gatedByBusy <;> simp [hg]

end Sys2Proof.Machine
end

