-- ==== Sys2Proof/Laws/Driver.lean ====
section
/-! SUPPORT. What the driver's operations do: a transaction is performed after everything that arrived before it, `poll`
ends with BUSY = 0, and every operation ends in a next state. Beside masters that only read, an operation waits for the
pending COMPRESS, if any, and changes nothing but its own effect. -/

namespace Sys2Proof.Machine

/-! ### Waiting -/

/-- H once nothing is pending any more: the pending COMPRESS's result, or H itself. -/
def settledH (s : State) : Vector Word 8 := if s.busy then compress s.h s.m else s.h

/-- The host turns a pending COMPRESS still leaves before its completion. -/
def turnsLeft (s : State) : Nat := s.hostTurns + turnsAhead s.cyclesLeft s.freeCtr

/-- What engine cycles and reads alone can do while the driver waits. -/
structure Waited (s t : State) : Prop where
  h : settledH t = settledH s
  m : t.m = s.m
  errBusy : t.errBusy = s.errBusy
  errCmd : t.errCmd = s.errCmd
  turns : t.busy = true → s.busy = true ∧ turnsLeft t ≤ turnsLeft s
  idle : s.busy = false → SameEngine s t

theorem Waited.refl (s : State) : Waited s s := ⟨rfl, rfl, rfl, rfl, fun h => ⟨h, le_rfl⟩, fun _ => rfl⟩

theorem SameEngine.trans {s u t : State} (h : SameEngine s u) (k : SameEngine u t) : SameEngine s t := by
  rw [k, h]

theorem SameEngine.busy {s t : State} (h : SameEngine s t) : t.busy = s.busy := by rw [h]

theorem Waited.trans {s u t : State} (h : Waited s u) (k : Waited u t) : Waited s t where
  h := k.h.trans h.h
  m := k.m.trans h.m
  errBusy := k.errBusy.trans h.errBusy
  errCmd := k.errCmd.trans h.errCmd
  turns hb := ⟨(h.turns (k.turns hb).1).1, (k.turns hb).2.trans (h.turns (k.turns hb).1).2⟩
  idle hb := (h.idle hb).trans (k.idle ((h.idle hb).busy.trans hb))

/-- One engine cycle is a wait. -/
theorem waited_engineCycle {s : State} (hb : s.busy = true) : Waited s (engineCycle s) := by
  obtain ⟨-, he⟩ | ⟨hc, he⟩ := engineCycle_cases s
  · rw [he]
    exact ⟨by simp [settledH, hb], rfl, rfl, rfl, fun h => by simp at h, fun h => by simp [hb] at h⟩
  · rw [he]
    refine ⟨by simp [settledH], rfl, rfl, rfl, fun _ => ⟨hb, ?_⟩, fun h => by simp [hb] at h⟩
    obtain ⟨c, hcl⟩ : ∃ c, s.cyclesLeft = c + 1 := ⟨s.cyclesLeft - 1, by omega⟩
    simp [turnsLeft, hcl, turnsAhead]

/-- A performed read is a wait, and uses up a host turn. -/
theorem waited_read (r : Response) (rest : List BusEvent) (s : State) : Waited s (respond r (takeEvent rest s)) :=
  ⟨rfl, rfl, rfl, rfl, fun h => ⟨h, by simp [turnsLeft]⟩, fun _ => rfl⟩

/-! ### Draining the queue -/

/-- What an event's performance leaves of the queue. -/
@[simp] theorem performed_queue (ev : BusEvent) (s : State) : (performed ev s).queue = s.queue := by
  cases ev with
  | read off n => simp [performed]
  | reset => simp [performed]
  | write off n v =>
    obtain ⟨-, h⟩ | ⟨r, -, -, -, h⟩ | ⟨r, -, -, h⟩ := performed_write_cases off n v s
    · simp [h]
    · simp [h]
    · rw [h]
      cases r <;> simp [written]
      unfold executed
      split
      · next i _ =>
        rcases effect_cases i (respond .done s) with ⟨-, h⟩ | ⟨-, h⟩ | ⟨-, h⟩ | ⟨-, v, h⟩ | ⟨-, h⟩ <;> simp [h]
      · simp

/-- The engine's own work still to do: its cycles, and the completion. -/
def engineWork (s : State) : Nat := s.cyclesLeft + s.busy.toNat

/-- One event adds the work of at most one COMPRESS. -/
theorem performed_work (ev : BusEvent) (s : State) :
    engineWork (performed ev s) ≤ engineWork s + Config.latCompress + 1 := by
  cases ev with
  | read off n => simp [performed, engineWork]; omega
  | reset => simp [performed, engineWork]
  | write off n v =>
    obtain ⟨-, h⟩ | ⟨r, -, -, -, h⟩ | ⟨r, -, -, h⟩ := performed_write_cases off n v s
    · simp [h, engineWork]; omega
    · simp [h, engineWork]; omega
    · rw [h]
      cases r <;> simp [written, engineWork] <;> try omega
      unfold executed
      split
      · next i _ =>
        rcases effect_cases i (respond .done s) with ⟨-, h⟩ | ⟨-, h⟩ | ⟨-, h⟩ | ⟨-, v, h⟩ | ⟨-, h⟩ <;> simp [h] <;> omega
      · simp; omega

/-- An engine cycle does some of the work. -/
theorem engineCycle_work {s : State} (hb : s.busy = true) : engineWork (engineCycle s) + 1 ≤ engineWork s := by
  obtain ⟨hc, he⟩ | ⟨hc, he⟩ := engineCycle_cases s <;> rw [he] <;> simp [engineWork, hb]
  omega

theorem engineCycle_queue (s : State) : (engineCycle s).queue = s.queue := by
  obtain ⟨-, he⟩ | ⟨-, he⟩ := engineCycle_cases s <;> rw [he]
  rfl

theorem drain_of_empty (fuel : Nat) {s : State} (hq : s.queue = []) : drain fuel s = .next s := by
  cases fuel <;> simp [drain, hq]

/-- Draining performs everything in the queue, the last event last; if only reads stand before it, the engine meanwhile
only waits. -/
theorem drain_last (ev : BusEvent) (fuel : Nat) (pre : List BusEvent) (s : State) (hq : s.queue = pre ++ [ev])
    (hf : engineWork s + s.queue.length * (Config.latCompress + 2) ≤ fuel) :
    ∃ t, (t.busy = true → t.hostTurns ≠ 0) ∧ drain fuel s = .next (performed ev (takeEvent [] t)) ∧
      (OnlyReads pre → Waited s t) := by
  induction fuel generalizing pre s with
  | zero => rw [hq] at hf; simp at hf
  | succ fuel ih =>
    have hne : s.queue.isEmpty = false := by simp [hq]
    by_cases ht : s.busy = true → s.hostTurns ≠ 0
    · match pre with
      | [] =>
        refine ⟨s, ht, ?_, fun _ => Waited.refl s⟩
        rw [drain, step_of_hostTurn ⟨hq, ht⟩]
        simp [hne, andThen, drain_of_empty]
      | e :: pre =>
        have hq' : (performed e (takeEvent (pre ++ [ev]) s)).queue = pre ++ [ev] := by simp
        have hw := performed_work e (takeEvent (pre ++ [ev]) s)
        have hw0 : engineWork (takeEvent (pre ++ [ev]) s) = engineWork s := rfl
        have hl : s.queue.length = (pre ++ [ev]).length + 1 := by rw [hq]; rfl
        obtain ⟨t, h1, h2, h3⟩ := ih pre _ hq' (by rw [hl, Nat.add_mul] at hf; rw [hq']; omega)
        refine ⟨t, h1, ?_, fun hr => ?_⟩
        · rw [drain, step_of_hostTurn ⟨hq, ht⟩]; simpa [hne, andThen] using h2
        · obtain ⟨off, n, rfl⟩ := hr e (by simp)
          exact (waited_read _ _ s).trans (h3 fun ev hev => hr ev (by simp [hev]))
    · push Not at ht
      have hw := engineCycle_work ht.1
      obtain ⟨t, h1, h2, h3⟩ := ih pre (engineCycle s) ((engineCycle_queue s).trans hq)
        (by rw [engineCycle_queue]; omega)
      refine ⟨t, h1, ?_, fun hr => (waited_engineCycle ht.1).trans (h3 hr)⟩
      rw [drain, step_of_engineTurn ⟨ht.1, .inr ht.2⟩]; simpa [hne, andThen] using h2

/-! ### One transaction -/

/-- Beside the driver, only reads reach the engine. -/
structure Quiet (b : SharedEngine) : Prop where
  queue : OnlyReads b.engine.queue
  others : ∀ evs ∈ b.others, OnlyReads evs

theorem Quiet.of_others {b : SharedEngine} (h : ∀ evs ∈ b.others, OnlyReads evs) {t : State} (hq : t.queue = []) :
    Quiet ⟨t, b.others.tail⟩ :=
  ⟨fun ev hev => by simp [hq] at hev, fun evs hevs => h evs (List.mem_of_mem_tail hevs)⟩

/-- Everything a driver's transaction can do: it is performed, after everything before it, and leaves the queue empty. -/
theorem issue_eq (ev : BusEvent) (b : SharedEngine) :
    ∃ t, (t.busy = true → t.hostTurns ≠ 0) ∧
      issue ev b = .next ⟨performed ev (takeEvent [] t), b.others.tail⟩ ∧ (Quiet b → Waited b.engine t) := by
  obtain ⟨t, h1, h2, h3⟩ := drain_last ev
    (drainBound { b.engine with queue := b.engine.queue ++ (b.others.headD [] ++ [ev]) })
    (b.engine.queue ++ b.others.headD []) { b.engine with queue := b.engine.queue ++ (b.others.headD [] ++ [ev]) }
    (by simp) (by cases hb : b.engine.busy <;> simp [engineWork, drainBound, hb]; omega)
  refine ⟨t, h1, ?_, fun hq => ?_⟩
  · unfold issue; simp only [h2]; rfl
  · have hr : OnlyReads (b.engine.queue ++ b.others.headD []) := by
      intro ev hev
      rcases List.mem_append.1 hev with hev | hev
      · exact hq.queue ev hev
      · cases ho : b.others with
        | nil => simp [ho] at hev
        | cons evs rest => exact hq.others evs (by simp [ho]) ev (by simpa [ho] using hev)
    exact ⟨(h3 hr).h, (h3 hr).m, (h3 hr).errBusy, (h3 hr).errCmd, (h3 hr).turns, (h3 hr).idle⟩

/-- A register's offset reaches that register. -/
theorem target_regOffset (r : Reg) : target (regOffset r) 4 = some r := by
  cases r with
  | m j => revert j; decide
  | h i => revert i; decide
  | _ => rfl

/-- `wr` on an idle engine, beside masters that only read. -/
theorem wr_of_idle (r : Reg) (v : Word) (b : SharedEngine) (hq : Quiet b) (hb : b.engine.busy = false) :
    ∃ u, SameEngine b.engine u ∧ u.queue = [] ∧ wr r v b = .next ⟨written r v (respond .done u), b.others.tail⟩ := by
  obtain ⟨t, -, h2, h3⟩ := issue_eq (.write (regOffset r) 4 v) b
  have hs := (h3 hq).idle hb
  refine ⟨takeEvent [] t, hs.trans (u := t) rfl, rfl, ?_⟩
  rw [wr, h2]; simp [performed, target_regOffset, hs.busy, hb]

/-- `rd` on an idle engine, beside masters that only read. -/
theorem rd_of_idle (r : Reg) (b : SharedEngine) (hq : Quiet b) (hb : b.engine.busy = false) :
    ∃ u, SameEngine b.engine u ∧ u.queue = [] ∧
      rd r b = .next ⟨respond (.data (readReg r b.engine)) u, b.others.tail⟩ := by
  obtain ⟨t, -, h2, h3⟩ := issue_eq (.read (regOffset r) 4) b
  have hs := (h3 hq).idle hb
  refine ⟨takeEvent [] t, hs.trans (u := t) rfl, rfl, ?_⟩
  have hr : readReg r (takeEvent [] t) = readReg r b.engine := by rw [hs]; cases r <;> rfl
  rw [rd, h2]; simp [performed, memRead, target_regOffset, hr]

/-- Everything `rd STATUS` can do: its bits are the engine's as they are afterwards. -/
theorem rd_status (b : SharedEngine) :
    ∃ t, rd .status b = .next ⟨t, b.others.tail⟩ ∧ t.queue = [] ∧ (lastData t).getLsbD 0 = t.busy ∧
      (lastData t).getLsbD 2 = t.errBusy ∧ (lastData t).getLsbD 3 = t.errCmd ∧
      (Quiet b → Waited b.engine t ∧ (t.busy = true → turnsLeft t + 1 ≤ turnsLeft b.engine)) := by
  obtain ⟨t, h1, h2, h3⟩ := issue_eq (.read (regOffset .status) 4) b
  have hr : performed (.read (regOffset .status) 4) (takeEvent [] t) = respond (.data (statusWord t)) (takeEvent [] t) := rfl
  have hbits : (statusWord t).getLsbD 0 = t.busy ∧ (statusWord t).getLsbD 2 = t.errBusy ∧
      (statusWord t).getLsbD 3 = t.errCmd := by
    simp only [statusWord]
    cases t.busy <;> cases t.done <;> cases t.errBusy <;> cases t.errCmd <;> decide
  refine ⟨respond (.data (statusWord t)) (takeEvent [] t), by rw [rd, h2, hr], rfl, hbits.1, hbits.2.1, hbits.2.2, ?_⟩
  intro hq
  refine ⟨(h3 hq).trans (waited_read _ _ t), fun hb => ?_⟩
  have h4 := h1 hb
  have h5 := ((h3 hq).turns hb).2
  simp [turnsLeft] at h5 ⊢; omega

/-! ### `poll` -/

/-- A poll that ended: BUSY = 0, nothing queued, and no arrival of the other masters more than before. -/
def Ended (b : SharedEngine) (o : Host.Outcome SharedEngine Fault Refusal) (P : State → Prop) : Prop :=
  ∃ t, o = .next t ∧ t.engine.busy = false ∧ t.engine.queue = [] ∧ t.others.length ≤ b.others.length ∧
    (Quiet b → Quiet t ∧ P t.engine)

/-- Beside masters that only read, enough reads find BUSY = 0. -/
theorem pollLoop_quiet (atEnd : SharedEngine → Host.Outcome SharedEngine Fault Refusal) (fuel : Nat) (b : SharedEngine)
    (hq : Quiet b) (hf : b.engine.busy = true → turnsLeft b.engine + 1 ≤ fuel) (hf' : 1 ≤ fuel) :
    Ended b (pollLoop atEnd fuel b) (Waited b.engine) := by
  induction fuel generalizing b with
  | zero => omega
  | succ fuel ih =>
    obtain ⟨t, h1, h2, h3, -, -, h4⟩ := rd_status b
    obtain ⟨hw, htl⟩ := h4 hq
    have hqt : Quiet ⟨t, b.others.tail⟩ := Quiet.of_others hq.others h2
    have hl : b.others.tail.length ≤ b.others.length := by simp
    rw [pollLoop, h1]
    simp only [andThen, h3]
    cases hb : t.busy with
    | false => exact ⟨_, rfl, hb, h2, hl, fun _ => ⟨hqt, hw⟩⟩
    | true =>
      have h5 := htl hb
      have h6 := hf (hw.turns hb).1
      obtain ⟨u, e1, e2, e3, e4, e5⟩ := ih ⟨t, b.others.tail⟩ hqt (fun _ => by simp only; omega) (by omega)
      exact ⟨u, e1, e2, e3, e4.trans hl, fun _ => ⟨(e5 hqt).1, hw.trans (e5 hqt).2⟩⟩

/-- Whatever the other masters do, every read uses up one of their arrivals, or finds BUSY = 0. -/
theorem pollLoop_any (atEnd : SharedEngine → Host.Outcome SharedEngine Fault Refusal) (fuel : Nat) (b : SharedEngine)
    (hend : ∀ c : SharedEngine, c.others.length ≤ b.others.length - fuel → (fuel = 0 → c = b) →
      (fuel ≠ 0 → c.engine.queue = []) → Ended c (atEnd c) (Waited c.engine)) :
    Ended b (pollLoop atEnd fuel b) (Waited b.engine) := by
  induction fuel generalizing b with
  | zero => exact hend b le_rfl (fun _ => rfl) (by simp)
  | succ fuel ih =>
    obtain ⟨t, h1, h2, h3, -, -, h4⟩ := rd_status b
    have hl : b.others.tail.length = b.others.length - 1 := by simp
    rw [pollLoop, h1]
    simp only [andThen, h3]
    cases hb : t.busy with
    | false => exact ⟨_, rfl, hb, h2, by simp, fun hq => ⟨Quiet.of_others hq.others h2, (h4 hq).1⟩⟩
    | true =>
      obtain ⟨u, e1, e2, e3, e4, e5⟩ := ih ⟨t, b.others.tail⟩ fun c hc hcb hcq =>
        hend c (by simp only [hl] at hc; omega) (by simp) fun _ => by
          by_cases hf : fuel = 0
          · rw [hcb hf]; exact h2
          · exact hcq hf
      refine ⟨u, e1, e2, e3, by simp only [hl] at e4; omega, fun hq => ?_⟩
      have := e5 (Quiet.of_others hq.others h2)
      exact ⟨this.1, (h4 hq).1.trans this.2⟩

/-- Everything `poll` can do: whatever the other masters do, it ends with BUSY = 0; beside masters that only read, the
engine has only waited. -/
theorem poll_ended (b : SharedEngine) : Ended b (poll b) (Waited b.engine) := by
  refine pollLoop_any _ _ b fun c hc _ hcq => ?_
  have ho : c.others = [] := List.length_eq_zero_iff.1 (by omega)
  have hq : Quiet c := ⟨fun ev hev => by simp [hcq (by simp)] at hev, fun evs hevs => by simp [ho] at hevs⟩
  exact pollLoop_quiet .next (pollBound c.engine) c hq (fun _ => by simp [pollBound, turnsLeft]) (by simp [pollBound])

/-! ### Every operation ends -/

/-- A driver's operation ended, and no arrival of the other masters is left more than before. -/
def Goes (b : SharedEngine) (o : Host.Outcome SharedEngine Fault Refusal) : Prop :=
  ∃ t, o = .next t ∧ t.others.length ≤ b.others.length

theorem Goes.andThen {b : SharedEngine} {o : Host.Outcome SharedEngine Fault Refusal}
    {f : SharedEngine → Host.Outcome SharedEngine Fault Refusal} (h : Goes b o) (hf : ∀ t, Goes t (f t)) :
    Goes b (andThen o f) := by
  obtain ⟨t, rfl, ht⟩ := h
  obtain ⟨u, hu, hl⟩ := hf t
  exact ⟨u, hu, hl.trans ht⟩

theorem goes_issue (ev : BusEvent) (b : SharedEngine) : Goes b (issue ev b) := by
  obtain ⟨t, -, h, -⟩ := issue_eq ev b
  exact ⟨_, h, by simp⟩

theorem goes_poll (b : SharedEngine) : Goes b (poll b) := by
  obtain ⟨t, h, -, -, hl, -⟩ := poll_ended b
  exact ⟨t, h, hl⟩

theorem goes_writeWords (words : List Word) (i : Nat) (b : SharedEngine) : Goes b (writeWords words i b) := by
  induction words generalizing i b with
  | nil => exact ⟨b, rfl, le_rfl⟩
  | cons v rest ih =>
    rw [writeWords]
    split
    · exact (goes_issue _ b).andThen fun t => ih _ t
    · exact ⟨b, rfl, le_rfl⟩

theorem goes_digestBlocks (blocks : List (Vector Word 16)) (b : SharedEngine) : Goes b (digestBlocks blocks b) := by
  induction blocks generalizing b with
  | nil => exact ⟨b, rfl, le_rfl⟩
  | cons block rest ih =>
    exact ((goes_writeWords _ 0 b).andThen fun t => (goes_issue _ t).andThen goes_poll).andThen ih

theorem goes_readWords (n : Nat) (acc : List Word) (b : SharedEngine) :
    ∃ words t, readWords n acc b = .next (words, t) ∧ t.others.length ≤ b.others.length := by
  induction n generalizing acc b with
  | zero => exact ⟨acc, b, rfl, le_rfl⟩
  | succ n ih =>
    rw [readWords]
    split
    · obtain ⟨t, h, hl⟩ := goes_issue (.read (regOffset (.h ⟨8 - (n + 1), by omega⟩)) 4) b
      obtain ⟨words, u, e, el⟩ := ih (acc ++ [lastData t.engine]) t
      exact ⟨words, u, by rw [rd, h]; exact e, el.trans hl⟩
    · exact ⟨acc, b, rfl, le_rfl⟩

/-- Everything a run of the digest procedure can answer: a digest under a clean STATUS, or a discarded one; either way an
arrival of the other masters is used up, while there is one. -/
theorem digestRun_cases (blocks : List (Vector Word 16)) (b : SharedEngine) :
    ∃ r t, digestRun blocks b = .next (r, t) ∧ t.others.length ≤ b.others.length - 1 ∧ t.engine.queue = [] ∧
      ((r = .error .discarded ∧ ¬Clean t.engine) ∨ (∃ d, r = .ok d ∧ Clean t.engine)) := by
  obtain ⟨t1, -, h1, -⟩ := issue_eq (.write (regOffset .status) 4 0x0000000E) b
  obtain ⟨t2, h2, l2⟩ := goes_poll ⟨performed (.write (regOffset .status) 4 0x0000000E) (takeEvent [] t1), b.others.tail⟩
  obtain ⟨t3, h3, l3⟩ := goes_issue (.write (regOffset .cmd) 4 (encode .init)) t2
  obtain ⟨t4, h4, l4⟩ := goes_digestBlocks blocks t3
  obtain ⟨words, t5, h5, l5⟩ := goes_readWords 8 [] t4
  obtain ⟨t6, h6, q6, -, e2, e3, -⟩ := rd_status t5
  have hl : (⟨t6, t5.others.tail⟩ : SharedEngine).others.length ≤ b.others.length - 1 := by
    simp only [List.length_tail] at l2 ⊢; omega
  have hrun : digestRun blocks b = if t6.errBusy || t6.errCmd then .next (.error .discarded, ⟨t6, t5.others.tail⟩)
      else .next (.ok (words.flatMap hex8), ⟨t6, t5.others.tail⟩) := by
    unfold digestRun digestFromInit clearStatus cmd wr
    simp only [h1, h2, h3, h4, h5, h6, andThen, e2, e3]
  rw [hrun]
  by_cases hc : (t6.errBusy || t6.errCmd) = true
  · refine ⟨_, _, if_pos hc, hl, q6, .inl ⟨rfl, ?_⟩⟩
    rintro ⟨c1, c2⟩
    simp only at c1 c2
    simp [c1, c2] at hc
  · refine ⟨_, _, if_neg hc, hl, q6, .inr ⟨_, rfl, ?_⟩⟩
    simpa [Clean] using hc

/-! ### The digest procedure beside masters that only read -/

/-- An idle engine, beside masters that only read. -/
structure Ready (b : SharedEngine) : Prop where
  quiet : Quiet b
  idle : b.engine.busy = false

/-- `wr M[t], v`, and the writes of further words after it. -/
theorem writeWords_ready (words : List Word) (i : Nat) (b : SharedEngine) (hb : Ready b) (hl : i + words.length ≤ 16) :
    ∃ t, writeWords words i b = .next t ∧ Ready t ∧ t.engine.h = b.engine.h ∧
      t.engine.errBusy = b.engine.errBusy ∧ t.engine.errCmd = b.engine.errCmd ∧
      ∀ j : Fin 16, t.engine.m[j.val] =
        if i ≤ j.val ∧ j.val < i + words.length then words.getD (j.val - i) 0 else b.engine.m[j.val] := by
  induction words generalizing i b with
  | nil => exact ⟨b, rfl, hb, rfl, rfl, rfl, fun j => by simp⟩
  | cons v rest ih =>
    simp only [List.length_cons] at hl
    have hi : i < 16 := by omega
    obtain ⟨u, hu, huq, h⟩ := wr_of_idle (.m ⟨i, hi⟩) v b hb.quiet hb.idle
    have hr : Ready ⟨written (.m ⟨i, hi⟩) v (respond .done u), b.others.tail⟩ :=
      ⟨Quiet.of_others hb.quiet.others (by simpa [written] using huq), by simpa [written] using hu.busy.trans hb.idle⟩
    obtain ⟨t, h1, h2, h3, h4, h5, h6⟩ := ih (i + 1) _ hr (by omega)
    refine ⟨t, by rw [writeWords, dif_pos hi, h]; exact h1, h2, h3.trans ?_, h4.trans ?_, h5.trans ?_, fun j => ?_⟩
    · simp only [written, respond_h]; rw [hu]
    · simp only [written, respond_errBusy]; rw [hu]
    · simp only [written, respond_errCmd]; rw [hu]
    · have hm : u.m = b.engine.m := by rw [hu]
      rw [h6 j]
      simp only [written, respond_m, hm, Vector.getElem_set, List.length_cons]
      by_cases hji : j.val = i
      · simp [hji]
      · by_cases hj : i + 1 ≤ j.val ∧ j.val < i + 1 + rest.length
        · rw [if_pos hj, if_pos (by omega), show j.val - i = j.val - (i + 1) + 1 by omega]; rfl
        · rw [if_neg hj, if_neg (Ne.symm hji), if_neg (by omega)]

/-- One block: the chaining state is compressed with it. -/
theorem digestBlock_ready (block : Vector Word 16) (b : SharedEngine) (hb : Ready b) :
    ∃ t, digestBlock block b = .next t ∧ Ready t ∧ t.engine.h = compress b.engine.h block ∧
      t.engine.errBusy = b.engine.errBusy ∧ t.engine.errCmd = b.engine.errCmd := by
  obtain ⟨u, u1, u2, u3, u4, u5, u6⟩ := writeWords_ready block.toList 0 b hb (by simp)
  have hm : u.engine.m = block := by
    ext j hj
    have := u6 ⟨j, hj⟩
    simp only [Vector.length_toList, Nat.zero_le, Nat.zero_add, hj, and_self, if_true, Nat.sub_zero] at this
    rw [this]; simp [hj]
  obtain ⟨w, hw, hwq, h⟩ := wr_of_idle .cmd (encode .compress) u u2.quiet u2.idle
  have hd : decode (encode .compress) = .ok .compress := by decide
  rw [show written .cmd (encode .compress) (respond .done w) = acceptCompress (respond .done w) by
    simp only [written, executed, hd, effect]] at h
  obtain ⟨t, h1, h2, h3, -, h5⟩ := poll_ended ⟨acceptCompress (respond .done w), u.others.tail⟩
  obtain ⟨hq, hp⟩ := h5 (Quiet.of_others u2.quiet.others (by simpa using hwq))
  refine ⟨t, ?_, ⟨hq, h2⟩, ?_, hp.errBusy.trans ?_, hp.errCmd.trans ?_⟩
  · rw [digestBlock, writeBlock, u1]; simp only [andThen]; rw [cmd, h]; exact h1
  · have := hp.h
    simp only [settledH, h2, acceptCompress_busy, acceptCompress_h, acceptCompress_m, respond_h, respond_m] at this
    rw [hw] at this
    simpa [u3, hm] using this
  · simp only [acceptCompress_errBusy, respond_errBusy]; rw [hw]; exact u4
  · simp only [acceptCompress_errCmd, respond_errCmd]; rw [hw]; exact u5

/-- The blocks in order: the chaining state carries forward. -/
theorem digestBlocks_ready (blocks : List (Vector Word 16)) (b : SharedEngine) (hb : Ready b) :
    ∃ t, digestBlocks blocks b = .next t ∧ Ready t ∧ t.engine.h = blocks.foldl compress b.engine.h ∧
      t.engine.errBusy = b.engine.errBusy ∧ t.engine.errCmd = b.engine.errCmd := by
  induction blocks generalizing b with
  | nil => exact ⟨b, rfl, hb, rfl, rfl, rfl⟩
  | cons block rest ih =>
    obtain ⟨u, u1, u2, u3, u4, u5⟩ := digestBlock_ready block b hb
    obtain ⟨t, h1, h2, h3, h4, h5⟩ := ih u u2
    exact ⟨t, by rw [digestBlocks, u1]; exact h1, h2, by rw [h3, u3]; rfl, h4.trans u4, h5.trans u5⟩

/-- `digest_out` reads the chaining state. -/
theorem readWords_ready (n : Nat) (acc : List Word) (b : SharedEngine) (hn : n ≤ 8) (hb : Ready b) :
    ∃ t, readWords n acc b = .next (acc ++ b.engine.h.toList.drop (8 - n), t) ∧ Ready t ∧ t.engine.h = b.engine.h ∧
      t.engine.errBusy = b.engine.errBusy ∧ t.engine.errCmd = b.engine.errCmd := by
  induction n generalizing acc b with
  | zero => exact ⟨b, by simp [readWords], hb, rfl, rfl, rfl⟩
  | succ n ih =>
    have hi : 8 - (n + 1) < 8 := by omega
    obtain ⟨u, hu, huq, h⟩ := rd_of_idle (.h ⟨8 - (n + 1), hi⟩) b hb.quiet hb.idle
    have hr : Ready ⟨respond (.data (readReg (.h ⟨8 - (n + 1), hi⟩) b.engine)) u, b.others.tail⟩ :=
      ⟨Quiet.of_others hb.quiet.others (by simpa using huq), by simpa using hu.busy.trans hb.idle⟩
    obtain ⟨t, h1, h2, h3, h4, h5⟩ := ih (acc ++ [b.engine.h[8 - (n + 1)]]) _ (by omega) hr
    have hh : u.h = b.engine.h := by rw [hu]
    refine ⟨t, ?_, h2, h3.trans hh, h4.trans ?_, h5.trans ?_⟩
    · rw [readWords, dif_pos hi, h]
      refine h1.trans ?_
      simp only [respond_h, hh, List.append_assoc, List.singleton_append]
      rw [List.drop_eq_getElem_cons (i := 8 - (n + 1)) (by simp; omega)]
      simp only [Vector.getElem_toList, show 8 - (n + 1) + 1 = 8 - n by omega]
    · simp only [respond_errBusy]; rw [hu]
    · simp only [respond_errCmd]; rw [hu]

/-- A run from its INIT on: with an error bit set it is discarded, else it gives the digest. -/
theorem digestFromInit_ready (blocks : List (Vector Word 16)) (b : SharedEngine) (hb : Ready b) :
    ∃ t, digestFromInit blocks b =
      .next (if b.engine.errBusy || b.engine.errCmd then .error .discarded
        else .ok (serialize (blocks.foldl compress b.engine.h)), t) ∧
      Ready t ∧ t.engine.queue = [] ∧ t.engine.h = blocks.foldl compress b.engine.h ∧
      t.engine.errBusy = b.engine.errBusy ∧ t.engine.errCmd = b.engine.errCmd := by
  obtain ⟨u, u1, u2, u3, u4, u5⟩ := digestBlocks_ready blocks b hb
  obtain ⟨w, w1, w2, w3, w4, w5⟩ := readWords_ready 8 [] u le_rfl u2
  obtain ⟨t, h1, h2, -, e2, e3, h4⟩ := rd_status w
  obtain ⟨hw, -⟩ := h4 w2.quiet
  have hs := hw.idle w2.idle
  have hh : t.h = w.engine.h := by rw [hs]
  have eb : t.errBusy = b.engine.errBusy := hw.errBusy.trans (w4.trans u4)
  have ec : t.errCmd = b.engine.errCmd := hw.errCmd.trans (w5.trans u5)
  refine ⟨⟨t, w.others.tail⟩, ?_, ⟨Quiet.of_others w2.quiet.others h2, hs.busy.trans w2.idle⟩, h2,
    hh.trans (w3.trans u3), eb, ec⟩
  rw [digestFromInit, u1]; simp only [andThen]; rw [w1]; simp only [h1, e2, e3, eb, ec]
  split <;> simp [serialize, u3]

end Sys2Proof.Machine
end

