-- ==== Sys2Proof/Laws/PerInstr.lean ====
section
/-! SUPPORT. Per-instruction facts: the fields of every command's word (30_encoding.md R60, R62, R64). -/

namespace Sys2Proof.Laws.EncodedFields

/-- The command word of i holds i's OPCODE in 7:0, i's IMM in 13:8 and zeros in 31:14. -/
def Statement (i : Instr) : Prop :=
  opcodeField (encode i) = i.opcode ∧ immField (encode i) = i.imm ∧ rsvdField (encode i) = 0

theorem nop : Statement .nop := ⟨rfl, rfl, rfl⟩
theorem init : Statement .init := ⟨rfl, rfl, rfl⟩
theorem compress : Statement .compress := ⟨rfl, rfl, rfl⟩
theorem krd (imm : BitVec 6) : Statement (.krd imm) := by unfold Statement; revert imm; decide
theorem rotr (imm : BitVec 6) : Statement (.rotr imm) := by unfold Statement; revert imm; decide
theorem shr (imm : BitVec 6) : Statement (.shr imm) := by unfold Statement; revert imm; decide
theorem add : Statement .add := ⟨rfl, rfl, rfl⟩
theorem ssig0 : Statement .ssig0 := ⟨rfl, rfl, rfl⟩
theorem ssig1 : Statement .ssig1 := ⟨rfl, rfl, rfl⟩
theorem bsig0 : Statement .bsig0 := ⟨rfl, rfl, rfl⟩
theorem bsig1 : Statement .bsig1 := ⟨rfl, rfl, rfl⟩
theorem ch : Statement .ch := ⟨rfl, rfl, rfl⟩
theorem maj : Statement .maj := ⟨rfl, rfl, rfl⟩
theorem wstep : Statement .wstep := ⟨rfl, rfl, rfl⟩
theorem t1p : Statement .t1p := ⟨rfl, rfl, rfl⟩
theorem t2 : Statement .t2 := ⟨rfl, rfl, rfl⟩

end Sys2Proof.Laws.EncodedFields
end

