-- ==== Sys2Proof/Tests/Slice0.lean ====
section
/-! SUPPORT. Tests: every expected value is taken from the spec (the vector or rule is named beside it). The second half
holds one witness per statement of Certificates/Slice0/Obligations.lean that has hypotheses. -/

namespace Sys2Proof.Tests

open Sys2Proof.Machine

/-! ### Well-formedness: an ill-formed term for each check -/

theorem test_wf_refuses_rotr_32 : (Instr.rotr 32).wf = false := by decide          -- R62, R70
theorem test_wf_refuses_shr_63 : (Instr.shr 63).wf = false := by decide            -- R62, R70
theorem test_wf_accepts_the_edges :
    (Instr.rotr 0).wf = true ∧ (Instr.rotr 31).wf = true ∧ (Instr.shr 31).wf = true ∧ (Instr.krd 63).wf = true := by decide

/-! ### Decoding: words written out from R72's bit strings, one per command -/

theorem test_decode_block :
    decode 0b00000000000000000000000000000000 = .ok .nop ∧
    decode 0b00000000000000000000000000000001 = .ok .init ∧
    decode 0b00000000000000000000000000000010 = .ok .compress ∧
    decode 0b00000000000000000010000100000011 = .ok (.krd 0b100001) := by decide
theorem test_decode_rotator_adder :
    decode 0b00000000000000000001000100010000 = .ok (.rotr 0b10001) ∧
    decode 0b00000000000000000001001000010001 = .ok (.shr 0b10010) ∧
    decode 0b00000000000000000000000000010010 = .ok .add := by decide
theorem test_decode_mixing :
    decode 0b00000000000000000000000000100000 = .ok .ssig0 ∧
    decode 0b00000000000000000000000000100001 = .ok .ssig1 ∧
    decode 0b00000000000000000000000000100010 = .ok .bsig0 ∧
    decode 0b00000000000000000000000000100011 = .ok .bsig1 ∧
    decode 0b00000000000000000000000000100100 = .ok .ch ∧
    decode 0b00000000000000000000000000100101 = .ok .maj ∧
    decode 0b00000000000000000000000000100110 = .ok .wstep ∧
    decode 0b00000000000000000000000000100111 = .ok .t1p ∧
    decode 0b00000000000000000000000000101000 = .ok .t2 := by decide
-- V-DEC-6, 11, 13 to 21
theorem test_decode_rejects_by_name :
    decode 0x00004003 = .error .reservedBits ∧ decode 0x80000020 = .error .reservedBits ∧
    decode 0x00002010 = .error .shiftTooLarge ∧ decode 0x00003F11 = .error .shiftTooLarge ∧
    decode 0x0000000F = .error .reservedOpcode ∧ decode 0x00000013 = .error .reservedOpcode ∧
    decode 0x00000029 = .error .reservedOpcode ∧ decode 0x000000FF = .error .reservedOpcode ∧
    decode 0x00000100 = .error .nonzeroImm ∧ decode 0x00000112 = .error .nonzeroImm := by decide
theorem test_decodeTableWord :
    decodeTableWord 32 0x00000710 = some (.rotr 7) ∧ decodeTableWord 32 0x00002010 = none := by decide

/-! ### Commands: one step on a small state -/

/-- The engine after reset with OPA to OPD set and a command word as the next CMD write. -/
def ready (a b c d : Word) (w : Nat) : State := (withOperands a b c d).withFetchWord 32 w

/-- RES after one step. -/
def resAfter (s : State) : Option Word :=
  match step s with
  | .next t => some t.res
  | .fault _ => none
  | .refused _ => none

/-- STATUS after one step. -/
def statusAfter (s : State) : Option Word :=
  match step s with
  | .next t => some (statusWord t)
  | .fault _ => none
  | .refused _ => none

/-- A register as it reads after one step. -/
def regAfter (r : Reg) (s : State) : Option Word :=
  match step s with
  | .next t => some (readReg r t)
  | .fault _ => none
  | .refused _ => none

theorem test_krd : resAfter (ready 0 0 0 0 0x00002F03) = some 0x106AA070 := by decide                 -- V-KRD-7
theorem test_krd_edge : resAfter (ready 0 0 0 0 0x00001003) = some 0xE49B69C1 := by decide            -- V-KRD-4
theorem test_rotr : resAfter (ready 0x12345678 0 0 0 0x00001810) = some 0x34567812 := by decide       -- V-RS-9
theorem test_rotr_31 : resAfter (ready 0x12345678 0 0 0 0x00001F10) = some 0x2468ACF0 := by decide    -- V-RS-10
theorem test_shr : resAfter (ready 0x12345678 0 0 0 0x00000811) = some 0x00123456 := by decide        -- V-RS-7
theorem test_shr_zero_fill : resAfter (ready 0xFFFFFFFF 0 0 0 0x00000711) = some 0x01FFFFFF := by decide  -- V-RS-11
theorem test_add_wraps : resAfter (ready 0xFFFFFFFF 0xFFFFFFFF 0 0 0x12) = some 0xFFFFFFFE := by decide   -- V-ADD-5
theorem test_ssig0 : resAfter (ready 0xDEADBEEF 0 0 0 0x20) = some 0xABD31B0B := by decide            -- V-SIG-7
theorem test_ssig1 : resAfter (ready 0xDEADBEEF 0 0 0 0x21) = some 0x689DBFEC := by decide            -- V-SIG-7
theorem test_bsig0 : resAfter (ready 0xDEADBEEF 0 0 0 0x22) = some 0xB62E25AC := by decide            -- V-SIG-7
theorem test_bsig1 : resAfter (ready 0xDEADBEEF 0 0 0 0x23) = some 0x345E14A3 := by decide            -- V-SIG-7
theorem test_ch : resAfter (ready 0x12345678 0x12345678 0x9ABCDEF0 1 0x24) = some 0x9ABCDEF8 := by decide   -- V-CM-9
theorem test_maj : resAfter (ready 0x510E527F 0x9B05688C 0x1F83D9AB 1 0x25) = some 0x1B0758AF := by decide  -- V-CM-4
theorem test_wstep : resAfter (ready 0x12345678 0x9ABCDEF0 0x0FEDCBA9 0x87654321 0x26) = some 0xE521C973 := by
  decide                                                                                            -- V-WS-4
theorem test_wstep_wraps : resAfter (ready 0xFFFFFFFF 0xFFFFFFFF 0xFFFFFFFF 0xFFFFFFFF 0x26) = some 0x203FFFFC := by
  decide                                                                                            -- V-WS-5
theorem test_t1p : resAfter (ready 0xFFFFFFFF 0xFFFFFFFF 0xFFFFFFFF 0xFFFFFFFF 0x27) = some 0xFFFFFFFD := by
  decide                                                                                            -- V-T1-3
theorem test_t2 : resAfter (ready 0x6A09E667 0xBB67AE85 0x3C6EF372 7 0x28) = some 0x08909AE5 := by decide   -- V-T2-1
theorem test_nop : statusAfter (State.withFetchWord { State.reset with done := true } 32 0) = some 0x2 := by
  decide                                                                                            -- R74
theorem test_init : regAfter (.h 7) (State.withFetchWord { State.reset with h := Vector.replicate 8 0x01234567 } 32 1) =
    some 0x5BE0CD19 := by decide                                                                    -- V-BLK-2
theorem test_compress_accept : statusAfter (State.withFetchWord { State.reset with done := true } 32 2) = some 0x1 := by
  decide                                                                                            -- V-DEC-3

/-- The padded block of "abc". -/
def abcBlock : Vector Word 16 := ⟨#[0x61626380, 0, 0, 0, 0, 0, 0, 0, 0, 0, 0, 0, 0, 0, 0, 0x00000018], rfl⟩

/-- The engine with a COMPRESS of the block pending at its last cycle. -/
def pending (m : Vector Word 16) : State :=
  { State.reset with m := m, busy := true, seq := { Sequencer.reset with phase := .schedule }, cyclesLeft := 1 }

-- V-CMP-1, word 7 and STATUS after completion
theorem test_compress_completes : regAfter (.h 7) (pending abcBlock) = some 0xF20015AD := by decide +kernel
theorem test_completion_status : statusAfter (pending abcBlock) = some 0x2 := by decide

/-! ### The compression function -/

-- 95_test_vectors.md 2.3: W[23] of "abc"
theorem test_expand : (expand abcBlock)[23] = 0xE2E2C38E := by decide +kernel
-- V-CMP-5
theorem test_compress_all_ones :
    compress (Vector.replicate 8 0xFFFFFFFF) (Vector.replicate 16 0xFFFFFFFF) =
      ⟨#[0x0598127A, 0xAF11706E, 0x77401FFF, 0xD730C549, 0x0B84C867, 0xA98C6CA3, 0xD7F3C0F9, 0x06A78B79], rfl⟩ := by
  decide +kernel

/-! ### The register window and the errors -/

-- R39, R40: the last word before and the first after each range
theorem test_window_edges :
    target 0x20 4 = some .res ∧ target 0x24 4 = none ∧ target 0x3C 4 = none ∧ target 0x40 4 = some (.m 0) ∧
    target 0x7C 4 = some (.m 15) ∧ target 0x80 4 = some (.h 0) ∧ target 0x9C 4 = some (.h 7) ∧ target 0xA0 4 = none ∧
    target 0xFC 4 = none ∧ target 0x02 4 = none ∧ target 0x0C 2 = none := by decide

/-- The bus's answer to the first event of a queue. -/
def answer (s : State) : Option Response :=
  match step s with
  | .next t => t.responses.head?
  | .fault _ => none
  | .refused _ => none

theorem test_read_id : answer { State.reset with queue := [.read 0x00 4] } = some (.data 0x53323536) := by decide  -- V-BUS-1
theorem test_read_iv : answer { State.reset with queue := [.read 0x8C 4] } = some (.data 0xA54FF53A) := by decide  -- V-BUS-7
theorem test_misaligned_read : answer { State.reset with queue := [.read 0x02 4] } = some (.busError 0x02) := by
  decide                                                                                            -- V-BUS-12
theorem test_illegal_word : statusAfter (State.reset.withFetchWord 32 4) = some 0x8 := by decide     -- V-ERR-1
theorem test_illegal_while_busy : statusAfter ((pending abcBlock).withFetchWord 32 4) = some 0x5 := by decide  -- V-ERR-3
theorem test_clear_one_error :
    statusAfter { State.reset with done := true, errBusy := true, errCmd := true, queue := [.write 0x0C 4 0x8] } = some 0x6 := by
  decide                                                                                            -- V-ERR-11
theorem test_write_m_while_busy :
    regAfter (.m 5) { pending abcBlock with hostTurns := 1, queue := [.write 0x54 4 0x11111111] } = some 0 := by
  decide                                                                                            -- V-ERR-4
theorem test_write_h : regAfter (.h 3) { State.reset with queue := [.write 0x8C 4 0x01234567] } = some 0x01234567 := by
  decide                                                                                            -- V-BUS-11
theorem test_reset_while_busy :
    statusAfter { pending abcBlock with hostTurns := 1, queue := [.reset] } = some 0 := by decide    -- V-RST-2

/-! ### The host driver and the notation -/

-- V-UTF-3
theorem test_utf8_range_ends :
    utf8Units [0x007F, 0x0080, 0x07FF, 0x0800, 0xFFFF, 0xDBFF, 0xDFFF] =
      .ok [0x7F, 0xC2, 0x80, 0xDF, 0xBF, 0xE0, 0xA0, 0x80, 0xEF, 0xBF, 0xBF, 0xF4, 0x8F, 0xBF, 0xBF] := by decide
-- V-UTF-5, V-UTF-7, V-UTF-8
theorem test_utf8_errors :
    utf8Units [0x0061, 0xD800, 0x0062] = .error (.encodingError 1) ∧
    utf8Units [0x0061, 0xD83D] = .error (.encodingError 1) ∧
    utf8Scalars [0x110000] = .error (.encodingError 0) := by decide
-- V-PAD-1b, V-PAD-1c, V-PAD-1i: block counts, and the marker of 55 bytes
theorem test_padding :
    blockCount 55 = 1 ∧ blockCount 56 = 2 ∧ blockCount 119 = 2 ∧ blockCount 120 = 3 ∧
    (messageBlocks (List.replicate 55 0x61)).map (fun b => (b[13], b[14], b[15])) = [(0x61616180, 0, 0x000001B8)] := by
  decide +kernel
-- V-SRC-2
theorem test_digest_abc :
    digestWords [0x61, 0x62, 0x63] =
      ⟨#[0xBA7816BF, 0x8F01CFEA, 0x414140DE, 0x5DAE2223, 0xB00361A3, 0x96177A9C, 0xB410FF61, 0xF20015AD], rfl⟩ := by
  decide +kernel
-- R112
theorem test_hex8 : hex8 0x0000ABCD = ['0', '0', '0', '0', 'a', 'b', 'c', 'd'] := by decide
-- R71 and 95_test_vectors.md 2.2: ROTL 8 is word 0x00001810, ROTL 0 is 0x00000010, ROTL 31 is 0x00000110
theorem test_rotl :
    rotl 8 = .command (.rotr 24) ∧ rotl 0 = .command (.rotr 0) ∧ rotl 31 = .command (.rotr 1) := by decide
-- R70: `SHR 32 ; x` is an assembly error, not a masked shift; `KRD 0x3F` is KRD 63
theorem test_read_line :
    readLine ['S', 'H', 'R', ' ', '3', '2', ' ', ';', 'x'] = .error .outOfRange ∧
    readLine ['K', 'R', 'D', ' ', '0', 'x', '3', 'F'] = .ok [.command (.krd 63)] ∧
    readLine ['w', 'r', ' ', 'M', '[', '1', '5', ']', ',', ' ', '2', '4'] = .ok [.wr (.m 15) 24] := by decide

/-! ### Witnesses: a state and operands that meet all hypotheses of a statement

Each is named after the statement of Obligations.lean it serves. -/

/-- An idle engine with one event to come. -/
def idleWith (ev : BusEvent) : State := { State.reset with queue := [ev] }

/-- A busy engine at the host's turn, with one event to come. -/
def busyWith (ev : BusEvent) : State := { pending abcBlock with hostTurns := 1, queue := [ev] }

/-- A busy engine at its own turn, with cycles to go. -/
def busyEngineTurn : State := { pending abcBlock with cyclesLeft := 2 }

theorem witness_ResetEventRestoresResetValues : HostTurn (busyWith .reset) .reset [] := by decide
theorem witness_ResetAbandonsPendingCompress :
    HostTurn { pending abcBlock with hostTurns := 1, queue := [.reset, .read 0x80 4] } .reset [.read 0x80 4] ∧
    (pending abcBlock).busy = true ∧
    (step { pending abcBlock with hostTurns := 1, queue := [.reset, .read 0x80 4] } =
      .next (applyReset { pending abcBlock with hostTurns := 0, queue := [.read 0x80 4] })) ∧
    (∀ ev ∈ [BusEvent.read 0x80 4], ∃ off n, ev = BusEvent.read off n) ∧
    stepsTo 0 State.reset State.reset := by
  refine ⟨by decide, rfl, rfl, ?_, rfl⟩
  intro ev h
  exact ⟨0x80, 4, List.mem_singleton.1 h⟩
theorem witness_WindowMapsEachRegisterOnce :
    ReservedOffset 0x24 ∧ ReservedOffset 0x3F ∧ ReservedOffset 0xA0 ∧ ReservedOffset 0xFF ∧ ¬ReservedOffset 0x40 ∧
    ¬ReservedOffset 0x9F := by decide
theorem witness_BusErrorChangesNothing :
    HostTurn (busyWith (.read 0x00 3)) (.read 0x00 3) [] ∧ (3 : Nat) ≠ 4 ∧
    HostTurn (idleWith (.write 0x09 4 1)) (.write 0x09 4 1) [] ∧ (0x09 : BitVec 8).toNat % 4 ≠ 0 ∧
    HostTurn (idleWith (.write 0x3C 4 1)) (.write 0x3C 4 1) [] ∧ ReservedOffset 0x3C := by decide
theorem witness_ReadReturnsTheRegister :
    HostTurn (busyWith (.read 0x7C 4)) (.read 0x7C 4) [] ∧ (0x7C : BitVec 8).toNat = 0x040 + 4 * (15 : Fin 16).val ∧
    HostTurn (idleWith (.read 0x80 4)) (.read 0x80 4) [] ∧ (0x80 : BitVec 8).toNat = 0x080 + 4 * (0 : Fin 8).val ∧
    HostTurn (idleWith (.read 0x00 4)) (.read 0x00 4) [] ∧ HostTurn (idleWith (.read 0x20 4)) (.read 0x20 4) [] ∧
    HostTurn (idleWith (.read 0x24 4)) (.read 0x24 4) [] ∧ ReservedOffset 0x24 := by decide
theorem witness_IdleWriteStoresTheValue :
    Reg.stores (.m 15) = true ∧ Reg.stores (.h 0) = true ∧ Reg.stores .opa = true ∧
    (idleWith (.write (regOffset (.m 15)) 4 5)).busy = false ∧
    HostTurn (idleWith (.write (regOffset (.m 15)) 4 5)) (.write (regOffset (.m 15)) 4 5) [] := by decide
theorem witness_ReadOnlyAndReservedBitsIgnoreWrites :
    HostTurn (busyWith (.write (regOffset .res) 4 5)) (.write (regOffset .res) 4 5) [] ∧
    HostTurn (busyWith (.read (regOffset .cmd) 4)) (.read (regOffset .cmd) 4) [] ∧
    (0xFFFFFFF1 : Word) &&& 0x0000000E = 0 ∧
    HostTurn (busyWith (.write (regOffset .status) 4 0xFFFFFFF1)) (.write (regOffset .status) 4 0xFFFFFFF1) [] := by decide
theorem witness_StatusIsWriteOneToClear :
    HostTurn (busyWith (.write (regOffset .status) 4 0xE)) (.write (regOffset .status) 4 0xE) [] := by decide
theorem witness_BusyRejectsWrites :
    Reg.gatedByBusy .cmd = true ∧ (busyWith (.write (regOffset .cmd) 4 0)).busy = true ∧
    HostTurn (busyWith (.write (regOffset .cmd) 4 0)) (.write (regOffset .cmd) 4 0) [] ∧
    (busyWith (.write (regOffset .status) 4 0)).errBusy = false ∧
    HostTurn (busyWith (.write (regOffset .status) 4 0)) (.write (regOffset .status) 4 0) [] ∧
    HostTurn (busyWith (.read (regOffset (.h 7)) 4)) (.read (regOffset (.h 7)) 4) [] := by decide
theorem witness_IllegalWordSetsErrCmdOnly :
    legal 0x00002010 = false ∧ (idleWith (.write (regOffset .cmd) 4 0x00002010)).busy = false ∧
    CmdTurn (idleWith (.write (regOffset .cmd) 4 0x00002010)) 0x00002010 [] := by decide
theorem witness_OneErrorPerTransactionInOrder :
    (busyWith (.write 0x09 4 4)).errBusy = false ∧ (busyWith (.write 0x09 4 4)).errCmd = false ∧
    HostTurn (busyWith (.write 0x09 4 4)) (.write 0x09 4 4) [] ∧ target 0x09 4 = none ∧
    HostTurn (busyWith (.write 0x08 4 4)) (.write 0x08 4 4) [] ∧ target 0x08 4 = some .cmd ∧ legal 4 = false ∧
    HostTurn (idleWith (.write 0x08 4 4)) (.write 0x08 4 4) [] ∧ (idleWith (.write 0x08 4 4)).busy = false ∧
    HostTurn (busyWith (.read 0x24 4)) (.read 0x24 4) [] := by decide
theorem witness_WordIsLegalIffOneRowAdmitsIt :
    decode 0x00003F03 = .ok (.krd 63) ∧ legal 0x00003F03 = true ∧ legal 0x00004003 = false ∧ legal 0x00000004 = false ∧
    legal 0x00000100 = false ∧ legal 0x00002011 = false := by decide
theorem witness_DecodeAndEncodeAgree :
    (Instr.rotr 31).wf = true ∧ encode (.rotr 31) = 0x00001F10 ∧ (Instr.rotr 32).wf = false := by decide
theorem witness_StepRunsTheDecodedCommand :
    decode 0x00000410 = .ok (.rotr 4) ∧
    CmdTurn (idleWith (.write (regOffset .cmd) 4 0x00000410)) 0x00000410 [] ∧
    CmdTurn (busyWith (.write (regOffset .cmd) 4 0x00000410)) 0x00000410 [] := by decide
-- The command statements ask for BUSY = 0 and, in their corner cases, for an operand value:
-- CompressAcceptanceStartsTheSequencer, EngineCompletesAtItsLastCycle, KrdReadsTheRoundConstant, RotrRotatesOpaRight,
-- ShrShiftsOpaRightWithZeroFill, AddIsModuloTwoToThe32, Ssig0WritesSmallSigmaZero, Ssig1WritesSmallSigmaOne,
-- Bsig0WritesBigSigmaZero, Bsig1WritesBigSigmaOne, ChChoosesByOpa, MajTakesTheMajority, WstepIsOneStepOfTheExpander,
-- T1pIsThePartialFirstTemporary, T2IsTheSecondTemporary.
theorem witness_command_statements :
    State.reset.busy = false ∧ (withOperands 0 1 2 3).opa = 0 ∧ (withOperands 0 1 2 3).busy = false ∧
    (withOperands 0xFFFFFFFF 1 2 3).opa = 0xFFFFFFFF ∧ (32 : BitVec 6).toNat = 32 := by decide
theorem witness_NopChangesNothing : readReg .status { State.reset with done := true } = 0x00000002 := by decide
theorem witness_InitReloadsTheChainingState :
    ({ State.reset with h := Vector.replicate 8 0x12345678 } : State).h[0] = 0x12345678 := by decide
theorem witness_CompletionIsOneEngineStep :
    step (pending abcBlock) = .next (complete (pending abcBlock)) ∧ (pending abcBlock).busy = true ∧
    (complete (pending abcBlock)).busy = false ∧ (¬∃ rest, HostTurn (pending abcBlock) .reset rest) ∧
    (step busyEngineTurn = .next (engineCycle busyEngineTurn) ∧ (engineCycle busyEngineTurn).busy = true) ∧
    (step (busyWith .reset) = .next (applyReset (takeEvent [] (busyWith .reset))) ∧ ¬EngineTurn (busyWith .reset)) ∧
    (step { State.reset with done := true } = .next { State.reset with done := true }) := by
  exact ⟨rfl, rfl, rfl, fun ⟨_, h, _⟩ => (List.cons_ne_nil _ _ h.symm).elim, ⟨rfl, rfl⟩, ⟨rfl, by decide⟩, rfl⟩
theorem witness_EngineCompletesAtItsLastCycle :
    EngineTurn (pending abcBlock) ∧ (pending abcBlock).cyclesLeft ≤ 1 ∧ EngineTurn busyEngineTurn ∧
    1 < busyEngineTurn.cyclesLeft := by decide
theorem witness_RotateShiftChooseMajorityBitByBit :
    (withOperands 1 2 3 4).busy = false ∧ (31 : BitVec 6).toNat < 32 ∧
    exec (.rotr 31) (withOperands 1 2 3 4) = .next (setRes (rotr 1 31) (withOperands 1 2 3 4)) ∧
    exec (.shr 31) (withOperands 1 2 3 4) = .next (setRes (shr 1 31) (withOperands 1 2 3 4)) ∧
    exec .ch (withOperands 1 2 3 4) = .next (setRes (ch 1 2 3) (withOperands 1 2 3 4)) ∧
    exec .maj (withOperands 1 2 3 4) = .next (setRes (maj 1 2 3) (withOperands 1 2 3 4)) := by
  refine ⟨rfl, by decide, rfl, rfl, rfl, rfl⟩
theorem witness_PrimitiveCommandsWriteOnlyRes :
    Instr.family .t2 ≠ .block ∧ Instr.wf .t2 = true ∧ (idleWith (cmdWrite (encode .t2))).busy = false ∧
    CmdTurn (idleWith (cmdWrite (encode .t2))) (encode .t2) [] ∧
    resAfter (ready 0 1 0 0 0x12) = some 1 := by decide
theorem witness_BusyRejectsEveryCommand :
    (busyWith (cmdWrite 4)).busy = true ∧ CmdTurn (busyWith (cmdWrite 4)) 4 [] := by decide
theorem witness_RepeatingACommand :
    Instr.add ≠ .compress ∧ exec .add State.reset = .next (setRes 0 State.reset) ∧
    (exec .compress State.reset = .next (acceptCompress State.reset)) ∧
    stepsTo 1 (pending abcBlock) (complete (pending abcBlock)) ∧ (complete (pending abcBlock)).queue = [] := by
  refine ⟨by decide, rfl, rfl, ⟨_, rfl, rfl⟩, rfl⟩
theorem witness_ExpandIsTheScheduleRecurrence :
    abcBlock[0] = 0x61626380 ∧ abcBlock[15] = 0x00000018 ∧ (∀ j : Fin 16, j ≠ 0 → j ≠ 15 → abcBlock[j.val] = 0) := by
  decide
theorem witness_RoundIsASimultaneousUpdate : (Vector.replicate 64 (0x61626380 : Word))[0] = 0x61626380 := by decide
-- One step of each kind: the four writers of H, a result, a store, an error bit set and cleared. It serves
-- ChainingStateHasFourWriters, ResIsWrittenByResultCommandsOnly, OperandsAndBlockAreWrittenByTheHostOnly,
-- BusyAndDoneChangeOnlyAsListed and ErrorBitsAreSticky.
theorem witness_step_statements :
    regAfter (.h 0) (idleWith (cmdWrite 1)) = some 0x6A09E667 ∧
    regAfter (.h 0) { idleWith .reset with h := Vector.replicate 8 0 } = some 0x6A09E667 ∧
    regAfter (.h 7) (idleWith (.write (regOffset (.h 7)) 4 9)) = some 9 ∧
    regAfter .res (ready 2 3 0 0 0x12) = some 5 ∧
    regAfter (.m 0) (idleWith (.write (regOffset (.m 0)) 4 9)) = some 9 ∧
    regAfter .opd (idleWith (.write (regOffset .opd) 4 9)) = some 9 ∧
    statusAfter (idleWith (cmdWrite 2)) = some 1 ∧
    statusAfter (busyWith (.write (regOffset .opa) 4 0)) = some 5 ∧
    statusAfter { idleWith (.write (regOffset .status) 4 0xE) with done := true, errBusy := true, errCmd := true } =
      some 0 := by decide
theorem witness_ResIsWrittenByResultCommandsOnly :
    exec .init State.reset = .next (reloadIV State.reset) ∧
    HostTurn (idleWith (.write (regOffset .res) 4 5)) (.write (regOffset .res) 4 5) [] := ⟨rfl, by decide⟩
theorem witness_ErrorBitsDoNotBlock :
    SameButErrors State.reset { State.reset with errBusy := true, errCmd := true } ∧
    stepsTo 1 State.reset State.reset := ⟨rfl, _, rfl, rfl⟩
theorem witness_HiddenStateCannotBeObserved :
    SameVisible (pending abcBlock) { pending abcBlock with seq := { Sequencer.reset with phase := .rounds, round := 9 } } ∧
    stepsTo 1 (pending abcBlock) (complete (pending abcBlock)) := ⟨rfl, _, rfl, rfl⟩
/-- A busy engine, as its acceptance left it, has the engine's invariant. -/
theorem witness_EveryStepKeepsTheEngineInvariant :
    EngineInv (acceptCompress State.reset) ∧
    step (acceptCompress State.reset) = .next (engineCycle (acceptCompress State.reset)) := by
  refine ⟨⟨by simp, by simp, by simp [Config.latCompress], ?_⟩, rfl⟩
  intro i h
  simp at h
theorem witness_PendingCompressCompletes :
    (busyWith (.write 0x40 4 1)).busy = true ∧ .reset ∉ (busyWith (.write 0x40 4 1)).queue := by decide
theorem witness_PaddingMeetsTheFiveConditions :
    ([0x61, 0x62, 0x63] : List Byte).length < 2 ^ 61 ∧ 3 + 1 ≤ 55 ∧ 55 + 9 ≤ (padded [0x61, 0x62, 0x63]).length ∧
    3 + 1 + 8 ≤ 64 * 1 := by decide
theorem witness_BlocksAreBigEndianWords : 0 < (messageBlocks [0x61, 0x62, 0x63]).length ∧
    blockCount ([0x61, 0x62, 0x63] : List Byte).length - 1 < (messageBlocks [0x61, 0x62, 0x63]).length := by decide
theorem witness_UnpairedSurrogateFailsTheDigest :
    utf8Units [0x0061, 0xD83D, 0xDE00] = .ok [0x61, 0xF0, 0x9F, 0x98, 0x80] ∧ isHighSurrogate 0xD800 = true ∧
    isHighSurrogate 0xDBFF = true ∧ (∀ v ∈ ([0x0062] : List CodeUnit).head?, isLowSurrogate v = false) ∧
    isLowSurrogate 0xDC00 = true ∧ isLowSurrogate 0xDFFF = true ∧
    utf8Scalars [0x61] = .ok [0x61] ∧ (0xD800 ≤ 0xDFFF ∧ 0xDFFF ≤ 0xDFFF) ∧ 0x10FFFF < 0x110000 := by
  refine ⟨by decide, by decide, by decide, ?_, by decide, by decide, by decide, by norm_num, by norm_num⟩
  intro v h
  cases h
  decide
/-- Another master writes an illegal command word before the driver's INIT. -/
def disturbed : SharedEngine := { engine := State.reset, others := [[], [], [cmdWrite 4]] }
/-- Its error bit stays set, so the run is discarded. -/
theorem witness_DriverDigestsOnTheEngine :
    ([0x61] : List Byte).length < 2 ^ 61 ∧ (∀ evs ∈ [[BusEvent.read 0x80 4], [.read 0x03 1]], OnlyReads evs) ∧
    ∃ t, digestRun (messageBlocks [0x61]) disturbed = .next (.error .discarded, t) := by
  refine ⟨by decide, ?_, ?_⟩
  · intro evs hevs ev hev
    fin_cases hevs <;> fin_cases hev <;> exact ⟨_, _, rfl⟩
  · obtain ⟨t, h, -⟩ := digestFromInit_ready (messageBlocks [0x61])
      ⟨{ State.reset with errCmd := true, responses := [.done, .done, .data 0, .done] }, []⟩
      ⟨⟨fun ev hev => by simp [State.reset] at hev, fun evs hevs => by simp at hevs⟩, rfl⟩
    exact ⟨t, h⟩
theorem witness_EnginesAreIndependent :
    Platform.wf [⟨0x100, State.reset⟩, ⟨0x200, State.reset⟩] ∧ (0x1FF < 0x200) ∧ 0x100 ≤ 0x1FF ∧ 0x1FF < 0x100 + 0x100 ∧
    EngineAt.arrive 0x1FF (.read 4) ⟨0x100, State.reset⟩ ≠ ⟨0x100, State.reset⟩ ∧
    Platform.stepAt 1 [⟨0x100, State.reset⟩, ⟨0x200, State.reset⟩] = some [⟨0x100, State.reset⟩, ⟨0x200, State.reset⟩] := by
  decide

end Sys2Proof.Tests
end

section
/-! PROOFS. Facts about the decoder and the register map: what a decoded word says of its instruction (30_encoding.md
R64, R65), and which transaction reaches which register (20_memory.md R39, R45). -/

namespace Sys2Proof

theorem withoutImm_eq_ok {imm : BitVec 6} {i j : Instr} : withoutImm imm i = .ok j ↔ imm = 0 ∧ i = j := by
  unfold withoutImm
  by_cases h : imm = 0 <;> simp_all

theorem withShift_eq_ok {imm : BitVec 6} {i j : Instr} :
    withShift imm i = .ok j ↔ shiftInRange imm = true ∧ i = j := by
  unfold withShift
  split_ifs with h <;> simp [h]

/-- A decoded instruction has the fields it was decoded from, and a legal operand. -/
theorem fields_of_decodeFields {op : BitVec 8} {imm : BitVec 6} {i : Instr} (h : decodeFields op imm = .ok i) :
    i.opcode = op ∧ i.imm = imm ∧ i.wf = true := by
  unfold decodeFields at h
  split at h
  case h_17 => cases h
  case h_4 hop => cases h; exact ⟨(BitVec.eq_of_toNat_eq hop).symm, rfl, rfl⟩
  case h_5 hop | h_6 hop =>
    obtain ⟨hs, rfl⟩ := withShift_eq_ok.1 h
    exact ⟨(BitVec.eq_of_toNat_eq hop).symm, rfl, hs⟩
  all_goals
    next hop =>
    obtain ⟨rfl, rfl⟩ := withoutImm_eq_ok.1 h
    exact ⟨(BitVec.eq_of_toNat_eq hop).symm, rfl, rfl⟩

/-- A word whose RSVD field is 0 is put together from its two other fields (R60, R70). -/
theorem word_of_fields {v : Word} (h : rsvdField v = 0) :
    (immField v).setWidth 32 <<< 8 ||| (opcodeField v).setWidth 32 = v := by
  apply BitVec.eq_of_getLsbD_eq
  intro k hk
  have hr : 14 ≤ k → v.getLsbD k = false := fun h14 => by
    have hbit := congrArg (fun r : BitVec 18 => r.getLsbD (k - 14)) h
    simpa [rsvdField, show k - 14 < 18 by omega, show 14 + (k - 14) = k by omega] using hbit
  by_cases h8 : k < 8
  · simp [immField, opcodeField, h8, hk]
  · by_cases h14 : k < 14
    · simp [immField, opcodeField, h8, hk, show k - 8 < 6 by omega, show 8 + (k - 8) = k by omega]
    · simpa [immField, opcodeField, h8, hk, show ¬k - 8 < 6 by omega] using hr (by omega)

/-- Every word that decodes is the encoding of the instruction it decodes to, whose operand is legal (R64, R72). -/
theorem encode_of_decode {v : Word} {i : Instr} (h : decode v = .ok i) : encode i = v ∧ i.wf = true := by
  unfold decode at h
  split_ifs at h with hr
  obtain ⟨hop, himm, hwf⟩ := fields_of_decodeFields h
  exact ⟨by rw [encode, hop, himm, word_of_fields hr], hwf⟩

/-! ### Legal words -/

/-- What every row of the match and mask table asks of RSVD and OPCODE: RSVD is 0 and OPCODE is the row's (R64). -/
theorem opcodeTable_fields : ∀ r ∈ opcodeTable, rsvdField r.mask = BitVec.allOnes 18 ∧ rsvdField r.pattern = 0 ∧
    opcodeField r.mask = BitVec.allOnes 8 ∧ immField r.pattern = 0 := by decide

/-- What a row says of the fields of a word it admits (R64, R65). IMM has no bit that the row's mask fixes. -/
theorem fields_of_admits {r : OpcodeRow} {v : Word} (hr : r ∈ opcodeTable) (h : r.admits v = true) :
    rsvdField v = 0 ∧ opcodeField v = opcodeField r.pattern ∧ immField v &&& immField r.mask = 0 := by
  obtain ⟨hrm, hrp, hom, hip⟩ := opcodeTable_fields r hr
  have hv : v &&& r.mask = r.pattern := by simpa [OpcodeRow.admits] using h
  rw [← hv] at hrp hip ⊢
  simp only [rsvdField, opcodeField, immField, BitVec.extractLsb'_and] at *
  rw [hrm, BitVec.and_allOnes] at hrp
  exact ⟨hrp, by rw [hom, BitVec.and_allOnes], hip⟩

/-- A legal word decodes. -/
theorem decode_of_legal {v : Word} (h : legal v = true) : ∃ i, decode v = .ok i := by
  obtain ⟨r, hr, ha⟩ := List.any_eq_true.1 h
  obtain ⟨hrsvd, hop, himm⟩ := fields_of_admits hr ha
  have hall : ∀ r ∈ opcodeTable, ∀ imm : BitVec 6, imm &&& immField r.mask = 0 →
      (decodeFields (opcodeField r.pattern) imm).isOk = true := by decide
  have hok := hall r hr _ himm
  rw [decode, if_pos hrsvd, hop]
  cases hd : decodeFields (opcodeField r.pattern) (immField v) with
  | ok i => exact ⟨i, rfl⟩
  | error e => simp [hd, Except.isOk, Except.toBool] at hok

theorem legal_eq_false_of_decode {v : Word} {e : IllegalWord} (h : decode v = .error e) : legal v = false := by
  by_contra hl
  obtain ⟨i, hi⟩ := decode_of_legal (Bool.of_not_eq_false hl)
  rw [h] at hi; cases hi

end Sys2Proof

namespace Sys2Proof.Machine

/-! ### The register map -/

/-- A transaction that reaches a register is four bytes wide and at that register's offset (R39, R45). -/
theorem target_eq_some_iff {off : BitVec 8} {n : Nat} {r : Reg} :
    target off n = some r ↔ off = regOffset r ∧ n = 4 := by
  constructor
  · intro h
    have hn : n = 4 := by
      by_contra hn
      simp [target, hn] at h
    subst hn
    have hoff : ∀ off : BitVec 8, ∀ r ∈ target off 4, off = regOffset r := by decide
    exact ⟨hoff off r h, rfl⟩
  · rintro ⟨rfl, rfl⟩
    exact target_regOffset r

end Sys2Proof.Machine
end

section
/-! PROOFS. Everything one step can do, said once: `StepCase` lists the turns and, for each, the state it leaves in
terms of the named updates. Every rule over all steps of the machine is a case analysis of it. -/

namespace Sys2Proof.Machine

/-- What a step from s can do (00_scope.md R13, 20_memory.md R43 to R46, R52, R53). -/
inductive StepCase (s : State) : State → Prop
  /-- A transaction that only answers: a read, a BusError, an ignored write, the CMD write of NOP. -/
  | answered (ev : BusEvent) (rest : List BusEvent) (r : Response) (turn : HostTurn s ev rest) :
      StepCase s (respond r (takeEvent rest s))
  | reset (rest : List BusEvent) (turn : HostTurn s .reset rest) : StepCase s (applyReset (takeEvent rest s))
  /-- A write rejected because BUSY = 1 (R120). -/
  | rejected (r : Reg) (v : Word) (rest : List BusEvent) (turn : HostTurn s (.write (regOffset r) 4 v) rest)
      (busy : s.busy = true) (gate : r.gatedByBusy = true) :
      StepCase s (flagErrBusy (respond .done (takeEvent rest s)))
  /-- A STATUS write (R24). -/
  | cleared (v : Word) (rest : List BusEvent) (turn : HostTurn s (.write (regOffset .status) 4 v) rest) :
      StepCase s (writeStatus v (respond .done (takeEvent rest s)))
  /-- A host write into OPA to OPD, M or H (R44). -/
  | stored (r : Reg) (v : Word) (rest : List BusEvent) (turn : HostTurn s (.write (regOffset r) 4 v) rest)
      (idle : s.busy = false) (store : r.stores = true) :
      StepCase s (written r v (respond .done (takeEvent rest s)))
  /-- INIT (R75). -/
  | reloaded (rest : List BusEvent) (turn : CmdTurn s (encode .init) rest) (idle : s.busy = false) :
      StepCase s (reloadIV (respond .done (takeEvent rest s)))
  /-- The acceptance of a COMPRESS (R81). -/
  | accepted (rest : List BusEvent) (turn : CmdTurn s (encode .compress) rest) (idle : s.busy = false) :
      StepCase s (acceptCompress (respond .done (takeEvent rest s)))
  /-- KRD or a primitive command (R85, R89). -/
  | result (i : Instr) (v : Word) (rest : List BusEvent) (turn : CmdTurn s (encode i) rest) (idle : s.busy = false)
      (wf : i.wf = true) (writes : writesRes i = true) :
      StepCase s (setRes v (respond .done (takeEvent rest s)))
  /-- The CMD write of an illegal word (R119). -/
  | illegal (v : Word) (rest : List BusEvent) (turn : CmdTurn s v rest) (idle : s.busy = false)
      (word : legal v = false) : StepCase s (flagErrCmd (respond .done (takeEvent rest s)))
  /-- An engine cycle before the last (log entry 6). -/
  | ticked (turn : EngineTurn s) (more : 1 < s.cyclesLeft) :
      StepCase s { s with seq := tick s.m s.h s.seq, cyclesLeft := s.cyclesLeft - 1,
                          hostTurns := Config.hostTurns s.freeCtr, freeCtr := s.freeCtr + 1 }
  /-- The completion of a COMPRESS (R82). -/
  | completed (turn : EngineTurn s) : StepCase s (complete s)
  | waited (turn : IdleTurn s) : StepCase s s

/-- A CMD write with BUSY = 0. -/
theorem stepCase_executed {s : State} {v : Word} {rest : List BusEvent} (turn : CmdTurn s v rest)
    (idle : s.busy = false) : StepCase s (executed v (respond .done (takeEvent rest s))) := by
  unfold executed
  split
  case h_2 e hd => exact .illegal v rest turn idle (legal_eq_false_of_decode hd)
  case h_1 i hd =>
    obtain ⟨rfl, hwf⟩ := encode_of_decode hd
    rcases effect_cases i (respond .done (takeEvent rest s)) with
      ⟨rfl, he⟩ | ⟨rfl, he⟩ | ⟨rfl, he⟩ | ⟨hw, w, he⟩ | ⟨hill, -⟩
    · rw [he]; exact .answered _ rest _ turn
    · rw [he]; exact .reloaded rest turn idle
    · rw [he]; exact .accepted rest turn idle
    · rw [he]; exact .result i w rest turn idle hwf hw
    · simp [hwf] at hill

/-- A write that BUSY does not hold back. -/
theorem stepCase_written {s : State} {r : Reg} {v : Word} {rest : List BusEvent}
    (turn : HostTurn s (.write (regOffset r) 4 v) rest) (hg : s.busy = true → r.gatedByBusy = false) :
    StepCase s (written r v (respond .done (takeEvent rest s))) := by
  have idle : r.gatedByBusy = true → s.busy = false := fun h => by
    cases hb : s.busy
    · rfl
    · simp [hg hb] at h
  cases r
  case id | version | res => exact .answered _ rest _ turn
  case status => exact .cleared v rest turn
  case cmd => exact stepCase_executed turn (idle rfl)
  all_goals exact .stored _ v rest turn (idle rfl) rfl

/-- The host's turn. -/
theorem stepCase_performed {s : State} {ev : BusEvent} {rest : List BusEvent} (turn : HostTurn s ev rest) :
    StepCase s (performed ev (takeEvent rest s)) := by
  cases ev with
  | read off n => exact .answered _ rest _ turn
  | reset => exact .reset rest turn
  | write off n v =>
    obtain ⟨-, h⟩ | ⟨r, ht, hb, hg, h⟩ | ⟨r, ht, hg, h⟩ := performed_write_cases off n v (takeEvent rest s)
    · rw [h]; exact .answered _ rest _ turn
    · obtain ⟨rfl, rfl⟩ := target_eq_some_iff.1 ht
      rw [h]; exact .rejected r v rest turn hb hg
    · obtain ⟨rfl, rfl⟩ := target_eq_some_iff.1 ht
      rw [h]; exact stepCase_written turn hg

/-- Everything a step can do. -/
theorem stepCase_of_step {s t : State} (h : step s = .next t) : StepCase s t := by
  obtain ⟨ev, rest, turn, rfl⟩ | ⟨turn, rfl⟩ | ⟨turn, rfl⟩ := step_cases h
  · exact stepCase_performed turn
  · obtain ⟨-, he⟩ | ⟨hc, he⟩ := engineCycle_cases s
    · rw [he]; exact .completed turn
    · rw [he]; exact .ticked turn hc
  · exact .waited turn

/-- A write to a register that BUSY does not hold back is performed (R44, R46). -/
theorem step_of_write {s : State} {r : Reg} {v : Word} {rest : List BusEvent}
    (turn : HostTurn s (.write (regOffset r) 4 v) rest) (hg : s.busy = true → r.gatedByBusy = false) :
    step s = .next (written r v (respond .done (takeEvent rest s))) := by
  have hgate : (s.busy && r.gatedByBusy) = false := by
    cases hb : s.busy
    · rfl
    · exact hg hb
  simp [step_of_hostTurn turn, performed, target_regOffset, hgate]

/-! ### What a store leaves alone (R44) -/

/-- A store changes nothing but OPA to OPD, M and H. -/
theorem written_of_stores {r : Reg} (hr : r.stores = true) (v : Word) (s : State) :
    written r v s =
      { s with opa := (written r v s).opa, opb := (written r v s).opb, opc := (written r v s).opc,
               opd := (written r v s).opd, m := (written r v s).m, h := (written r v s).h } := by
  cases r
  case id | version | cmd | status | res => cases hr
  all_goals rfl

section
variable {r : Reg} (hr : r.stores = true) (v : Word) (s : State)
include hr

theorem written_res_of_stores : (written r v s).res = s.res := by rw [written_of_stores hr]
theorem written_busy_of_stores : (written r v s).busy = s.busy := by rw [written_of_stores hr]
theorem written_done_of_stores : (written r v s).done = s.done := by rw [written_of_stores hr]
theorem written_errBusy_of_stores : (written r v s).errBusy = s.errBusy := by rw [written_of_stores hr]
theorem written_errCmd_of_stores : (written r v s).errCmd = s.errCmd := by rw [written_of_stores hr]
theorem written_seq_of_stores : (written r v s).seq = s.seq := by rw [written_of_stores hr]

end

end Sys2Proof.Machine
end

section
/-! PROOFS. The hidden sequencer and the engine's invariant: one micro-step keeps what the hidden state holds of a
pending compression (10_state.md R33, R34), so 130 of them end in Compress(H, M) and every step keeps `EngineInv`. -/

namespace Sys2Proof.Machine

/-! ### One micro-step -/

/-- A schedule right up to entry i − 1 is, after one more step, right up to entry i (R78). -/
theorem scheduleStep_next_entry {m : Vector Word 16} {w : Vector Word 64} (i : Fin 64)
    (hw : ∀ j : Fin 64, j.val < i.val → w[j.val] = (expand m)[j.val]) (j : Fin 64) (hj : j.val < i.val + 1) :
    (scheduleStep m w i)[j.val] = (expand m)[j.val] := by
  rw [scheduleStep_getElem]
  split_ifs with hij
  · subst hij
    rw [scheduleWord_congr m i hw, ← expand_getElem]
  · exact hw j (by rw [Fin.ext_iff] at hij; omega)

theorem tick_keeps_sequencerInv {m : Vector Word 16} {h : Vector Word 8} {q : Sequencer} (hq : SequencerInv m h q) :
    SequencerInv m h (tick m h q) := by
  obtain ⟨w, vars, round, phase⟩ := q
  cases phase with
  | idle => exact hq
  | feedForward => exact hq
  | schedule =>
    by_cases hr : round.val < 64
    · simpa [tick, hr, SequencerInv] using scheduleStep_next_entry ⟨round.val, hr⟩ hq
    · have hw : w = expand m := schedule_ext fun i => hq i (by simp; omega)
      simp [tick, hr, SequencerInv, hw, roundsUpTo]
  | rounds =>
    obtain ⟨hw, hv⟩ : w = expand m ∧ vars = roundsUpTo (expand m) (seed h) round.val := hq
    by_cases hr : round.val < 64
    · simp [tick, hr, SequencerInv, hw, hv, roundsUpTo_succ]
    · simp [tick, SequencerInv, hw, hv, show round.val = 64 by omega]

/-- A sequencer that is idle stays idle, and one that is not does not become so. -/
theorem tick_phase_idle (m : Vector Word 16) (h : Vector Word 8) (q : Sequencer) :
    (tick m h q).phase = .idle ↔ q.phase = .idle := by
  obtain ⟨w, vars, round, phase⟩ := q
  cases phase <;> simp only [tick]
  case schedule | rounds => split <;> simp

/-! ### 130 micro-steps -/

/-- Micro-steps until the feed-forward phase: a word or a round each, and one for each change of phase (log entry 6). -/
def microSteps (q : Sequencer) : Nat :=
  match q.phase with
  | .schedule => (64 - q.round.val) + 1 + 64 + 1
  | .rounds => (64 - q.round.val) + 1
  | .idle | .feedForward => 0

theorem tick_microSteps (m : Vector Word 16) (h : Vector Word 8) (q : Sequencer) :
    microSteps (tick m h q) = microSteps q - 1 := by
  obtain ⟨w, vars, round, phase⟩ := q
  cases phase with
  | idle => rfl
  | feedForward => rfl
  | schedule => by_cases hr : round.val < 64 <;> simp [tick, hr, microSteps] <;> omega
  | rounds => by_cases hr : round.val < 64 <;> simp [tick, hr, microSteps] <;> omega

/-- What any number of micro-steps keeps. -/
theorem ticks_keep {m : Vector Word 16} {h : Vector Word 8} (n : Nat) {q : Sequencer} (hq : SequencerInv m h q)
    (hp : q.phase ≠ .idle) :
    SequencerInv m h (ticks m h n q) ∧ (ticks m h n q).phase ≠ .idle ∧
      microSteps (ticks m h n q) = microSteps q - n := by
  induction n generalizing q with
  | zero => exact ⟨hq, hp, rfl⟩
  | succ n ih =>
    obtain ⟨hinv, hphase, hleft⟩ := ih (tick_keeps_sequencerInv hq) (by rwa [Ne, tick_phase_idle])
    refine ⟨hinv, hphase, ?_⟩
    rw [ticks, hleft, tick_microSteps]
    omega

/-- With no micro-step left, a sequencer that is not idle holds the feed-forward's operands (R80). -/
theorem feedForward_of_microSteps {m : Vector Word 16} {h : Vector Word 8} {q : Sequencer} (hq : SequencerInv m h q)
    (hp : q.phase ≠ .idle) (h0 : microSteps q = 0) :
    q.phase = .feedForward ∧ feedForward h q.vars = compress h m := by
  obtain ⟨w, vars, round, phase⟩ := q
  cases phase with
  | idle => exact absurd rfl hp
  | schedule => simp [microSteps] at h0
  | rounds => simp [microSteps] at h0
  | feedForward =>
    obtain ⟨-, hv⟩ : w = expand m ∧ vars = roundsUpTo (expand m) (seed h) 64 := hq
    exact ⟨rfl, by simp only [hv, compress]⟩

/-- From the start of the schedule phase, whatever W and a..h hold there, 130 micro-steps or more are enough (R88). -/
theorem ticks_of_schedule {m : Vector Word 16} {h : Vector Word 8} {q : Sequencer} {n : Nat} (hn : 130 ≤ n)
    (hp : q.phase = .schedule) (hr : q.round.val = 0) :
    (ticks m h n q).phase = .feedForward ∧ feedForward h (ticks m h n q).vars = compress h m := by
  have hstart : SequencerInv m h q := by simp [SequencerInv, hp, hr]
  have hleft : microSteps q = 130 := by simp [microSteps, hp, hr]
  obtain ⟨hinv, hphase, hrest⟩ := ticks_keep n hstart (by simp [hp])
  exact feedForward_of_microSteps hinv hphase (by omega)

/-! ### The engine's invariant -/

theorem engineInv_of_idle {t : State} (hb : t.busy = false) (hp : t.seq.phase = .idle) : EngineInv t where
  busy_iff := by simp [hb, hp]
  done_clear := by simp [hb]
  cycles_pos := by simp [hb]
  sequencer := by simp [SequencerInv, hp]

theorem EngineInv.phase_idle {s : State} (hs : EngineInv s) (hb : s.busy = false) : s.seq.phase = .idle := by
  by_contra hp
  simp [hs.busy_iff.2 hp] at hb

/-- The invariant speaks of BUSY, DONE, M, H, the hidden state and the cycles left only, and DONE may be cleared. -/
theorem EngineInv.of_frame {s t : State} (hs : EngineInv s) (hbusy : t.busy = s.busy) (hseq : t.seq = s.seq)
    (hcycles : t.cyclesLeft = s.cyclesLeft) (hm : t.m = s.m) (hh : t.h = s.h)
    (hdone : s.done = false → t.done = false) : EngineInv t where
  busy_iff := by rw [hbusy, hseq]; exact hs.busy_iff
  done_clear hb := hdone (hs.done_clear (hbusy ▸ hb))
  cycles_pos hb := hcycles ▸ hs.cycles_pos (hbusy ▸ hb)
  sequencer := by rw [hm, hh, hseq]; exact hs.sequencer

/-- The acceptance starts with no schedule word done (R81). -/
theorem engineInv_acceptCompress (s : State) : EngineInv (acceptCompress s) where
  busy_iff := by simp
  done_clear := by simp
  cycles_pos := by simp [Config.latCompress]
  sequencer := by intro i hi; simp at hi

/-- An engine cycle before the last is one micro-step (log entry 6). -/
theorem EngineInv.ticked {s : State} (hs : EngineInv s) (hc : 1 < s.cyclesLeft) (turns ctr : Nat) :
    EngineInv { s with seq := tick s.m s.h s.seq, cyclesLeft := s.cyclesLeft - 1, hostTurns := turns,
                       freeCtr := ctr } where
  busy_iff := by simp only [Ne, tick_phase_idle]; exact hs.busy_iff
  done_clear := hs.done_clear
  cycles_pos _ := by simp only; omega
  sequencer := tick_keeps_sequencerInv hs.sequencer

theorem step_keeps_engineInv {s t : State} (hs : EngineInv s) (h : step s = .next t) : EngineInv t := by
  cases stepCase_of_step h with
  | answered | rejected | illegal | result => exact hs.of_frame rfl rfl rfl rfl rfl id
  | cleared => exact hs.of_frame rfl rfl rfl rfl rfl fun hd => by simp [hd]
  | reset => exact engineInv_of_idle rfl rfl
  | stored r v rest turn idle store =>
    refine engineInv_of_idle ?_ ?_
    · rw [written_busy_of_stores store]; exact idle
    · rw [written_seq_of_stores store]; exact hs.phase_idle idle
  | reloaded rest turn idle => exact engineInv_of_idle idle (hs.phase_idle idle)
  | accepted => exact engineInv_acceptCompress _
  | ticked turn more => exact hs.ticked more _ _
  | completed => exact engineInv_of_idle rfl rfl
  | waited => exact hs

end Sys2Proof.Machine

open Sys2Proof Sys2Proof.Machine

/-- Settles O52: `StepCase` lists what a step can do; a host's event either keeps all that the invariant speaks of or
finds or leaves the engine idle, and an engine cycle is a micro-step or the completion. -/
theorem everyStepKeepsTheEngineInvariant : Obligations.EveryStepKeepsTheEngineInvariant :=
  fun _ _ hs h => step_keeps_engineInv hs h

/-- Settles O53: right after reset nothing is pending and the phase is idle (R36). -/
theorem resetHasTheEngineInvariant : Obligations.ResetHasTheEngineInvariant := engineInv_of_idle rfl rfl

/-- Settles O43: a micro-step keeps `SequencerInv` and uses up one of the 130 that the schedule phase has before it. -/
theorem sequencerRefinesCompress : Obligations.SequencerRefinesCompress :=
  fun _ _ _ _ => ticks_of_schedule le_rfl rfl rfl

end

section
/-! PROOFS. R35: no bus transaction depends on hidden state. Two engines that differ in it only answer a transaction
alike, choose the same agent to move next, and differ in it only afterwards. -/

namespace Sys2Proof.Machine

namespace SameVisible

variable {s t : State}

/-- R43 reads no hidden state. -/
theorem readReg_eq (h : SameVisible s t) (r : Reg) : readReg r t = readReg r s := by
  rw [h]; cases r <;> rfl

theorem memRead_eq (h : SameVisible s t) (off : BitVec 8) (n : Nat) : memRead off n t = memRead off n s := by
  unfold memRead
  split
  · rw [h.readReg_eq]
  · rfl

theorem takeEvent_congr (h : SameVisible s t) (rest : List BusEvent) :
    SameVisible (takeEvent rest s) (takeEvent rest t) := by rw [h]; rfl

theorem respond_congr (h : SameVisible s t) (r : Response) : SameVisible (respond r s) (respond r t) := by rw [h]; rfl

theorem effect_congr (h : SameVisible s t) (i : Instr) : SameVisible (effect i s) (effect i t) := by
  rw [h]
  cases i
  case rotr imm | shr imm => cases hs : shiftInRange imm <;> simp only [effect, hs] <;> rfl
  all_goals rfl

theorem executed_congr (h : SameVisible s t) (v : Word) : SameVisible (executed v s) (executed v t) := by
  unfold executed
  split
  · exact h.effect_congr _
  · rw [h]; rfl

theorem written_congr (h : SameVisible s t) (r : Reg) (v : Word) : SameVisible (written r v s) (written r v t) := by
  cases r
  case cmd => exact h.executed_congr v
  all_goals rw [h]; rfl

theorem performed_congr (h : SameVisible s t) (ev : BusEvent) : SameVisible (performed ev s) (performed ev t) := by
  cases ev with
  | read off n =>
    simp only [performed, h.memRead_eq]
    exact h.respond_congr _
  | reset => rw [h]; rfl
  | write off n v =>
    simp only [performed]
    cases target off n with
    | none => exact h.respond_congr _
    | some r =>
      have hb : t.busy = s.busy := by rw [h]
      simp only [hb]
      split
      · rw [h]; rfl
      · exact (h.respond_congr _).written_congr r v

theorem engineCycle_congr (h : SameVisible s t) : SameVisible (engineCycle s) (engineCycle t) := by
  rw [h]
  unfold engineCycle
  split <;> rfl

/-- Whose turn it is does not depend on hidden state (log entry 2: both draw the same free numbers). -/
theorem step_congr (h : SameVisible s t) {s' t' : State} (hs : step s = .next s') (ht : step t = .next t') :
    SameVisible s' t' := by
  have hq : t.queue = s.queue := by rw [h]
  have hb : t.busy = s.busy := by rw [h]
  have hn : t.hostTurns = s.hostTurns := by rw [h]
  obtain ⟨ev, rest, turn, rfl⟩ | ⟨turn, rfl⟩ | ⟨turn, rfl⟩ := step_cases hs
  · rw [step_of_hostTurn (s := t) (by rwa [HostTurn, hq, hb, hn])] at ht
    cases ht
    exact (h.takeEvent_congr rest).performed_congr ev
  · rw [step_of_engineTurn (s := t) (by rwa [EngineTurn, hq, hb, hn])] at ht
    cases ht
    exact h.engineCycle_congr
  · rw [step_of_idleTurn (s := t) (by rwa [IdleTurn, hq, hb])] at ht
    cases ht
    exact h

theorem stepsTo_congr (k : Nat) {s t s' t' : State} (h : SameVisible s t) (hs : stepsTo k s s') (ht : stepsTo k t t') :
    SameVisible s' t' := by
  induction k generalizing s t with
  | zero => cases hs; cases ht; exact h
  | succ k ih =>
    obtain ⟨u, hsu, hus⟩ := hs
    obtain ⟨u', htu, hut⟩ := ht
    exact ih (h.step_congr hsu htu) hus hut

end SameVisible

end Sys2Proof.Machine

open Sys2Proof Sys2Proof.Machine

/-- Settles O51: by induction on the number of steps, since one step keeps `SameVisible` and no register reads hidden
state. -/
theorem hiddenStateCannotBeObserved : Obligations.HiddenStateCannotBeObserved := by
  intro k s t s' t' h hs ht
  have h' : SameVisible s' t' := SameVisible.stepsTo_congr k h hs ht
  exact ⟨h', by rw [h'], fun r => (SameVisible.readReg_eq h' r).symm⟩

end

section
/-! PROOFS. The rules over every step of the machine: which events write H, RES, OPA to OPD, M and the STATUS bits
(10_state.md R19, R20, R25 to R30). Each is a case analysis of `StepCase`. -/

namespace Sys2Proof.Machine

/-- What a store does to H: nothing, or the value goes into the one word that it names (R44). -/
theorem written_h_of_stores {r : Reg} (hr : r.stores = true) (v : Word) (s : State) :
    (written r v s).h = s.h ∨ ∃ i, r = .h i ∧ (written r v s).h = s.h.set i.val v := by
  cases r
  case id | version | cmd | status | res => cases hr
  case h i => exact .inr ⟨i, rfl, rfl⟩
  all_goals exact .inl rfl

/-- A host write is read back from the register it names, and from no other one (R44). -/
theorem readReg_written {r : Reg} (hr : r.stores = true) (v : Word) (s : State) (r' : Reg) :
    readReg r' (written r v s) = if r' = r then v else readReg r' s := by
  cases r
  case id | version | cmd | status | res => cases hr
  case m i | h i => cases r' <;> simp [readReg, written, statusWord, Vector.getElem_set, Fin.ext_iff, eq_comm]
  all_goals cases r' <;> rfl

/-- No command writes OPA to OPD or M (R19, R29). -/
theorem effect_keeps_operands (i : Instr) (s : State) : (effect i s).operands = s.operands ∧ (effect i s).m = s.m := by
  rcases effect_cases i s with ⟨-, h⟩ | ⟨-, h⟩ | ⟨-, h⟩ | ⟨-, v, h⟩ | ⟨-, h⟩ <;> rw [h] <;> exact ⟨rfl, rfl⟩

/-- A read view of OPA to OPD or M. -/
theorem readReg_eq_of_operands {s t : State} (ho : t.operands = s.operands) (hm : t.m = s.m) {r : Reg}
    (hr : r = .opa ∨ r = .opb ∨ r = .opc ∨ r = .opd ∨ ∃ j, r = .m j) : readReg r t = readReg r s := by
  simp only [State.operands, Operands.mk.injEq] at ho
  obtain ⟨ha, hb, hc, hd⟩ := ho
  obtain rfl | rfl | rfl | rfl | ⟨j, rfl⟩ := hr <;> simp [readReg, *]

/-- NOP, INIT and COMPRESS leave RES (R20). -/
theorem effect_keeps_res {i : Instr} (hi : writesRes i = false) (s : State) : (effect i s).res = s.res := by
  rcases effect_cases i s with ⟨-, h⟩ | ⟨-, h⟩ | ⟨-, h⟩ | ⟨hw, -⟩ | ⟨-, h⟩
  case inr.inr.inr.inl => simp [hi] at hw
  all_goals simp [h]

end Sys2Proof.Machine

open Sys2Proof Sys2Proof.Machine

/-- Settles O45: of the steps that `StepCase` lists, only reset, INIT, a completion and a store into an H word touch H,
and of these only the completion and reset can meet BUSY = 1, which they end. -/
theorem chainingStateHasFourWriters : Obligations.ChainingStateHasFourWriters := by
  refine ⟨fun s t h hne => ?_, fun s t h hb hb' => ?_, rfl⟩
  · cases stepCase_of_step h with
    | reset rest turn => exact .inl ⟨⟨rest, turn⟩, rfl⟩
    | reloaded rest turn idle => exact .inr (.inl ⟨⟨rest, turn⟩, idle, rfl⟩)
    | completed turn => exact .inr (.inr (.inl ⟨turn, rfl, rfl⟩))
    | stored r v rest turn idle store =>
      obtain hh | ⟨i, rfl, hh⟩ := written_h_of_stores store v (respond .done (takeEvent rest s))
      · exact absurd hh hne
      · refine .inr (.inr (.inr ⟨i, v, rest, turn, idle, ?_, fun j hj => ?_⟩))
        · simp [hh]
        · rw [hh, Vector.getElem_set_ne _ _ (by rw [Ne, ← Fin.ext_iff]; exact hj.symm)]
          rfl
    | answered | rejected | cleared | accepted | result | illegal | ticked | waited => exact absurd rfl hne
  · cases stepCase_of_step h with
    | reset => simp at hb'
    | completed => simp at hb'
    | stored r v rest turn idle | reloaded rest turn idle | accepted rest turn idle | result i v rest turn idle
    | illegal v rest turn idle => simp [idle] at hb
    | answered | rejected | cleared | ticked | waited => rfl

/-- Settles O46: of the steps that `StepCase` lists, only reset and a result command write RES. -/
theorem resIsWrittenByResultCommandsOnly : Obligations.ResIsWrittenByResultCommandsOnly := by
  refine ⟨fun s t h hne => ?_, fun i s t hi h => ?_, fun s v rest turn => ?_, rfl⟩
  · cases stepCase_of_step h with
    | reset rest turn => exact .inl ⟨⟨rest, turn⟩, rfl⟩
    | result i v rest turn idle wf writes => exact .inr ⟨i, rest, turn, wf, writes, idle⟩
    | stored r v rest turn idle store => exact absurd (written_res_of_stores store v _) hne
    | answered | rejected | cleared | reloaded | accepted | illegal | ticked | completed | waited =>
      exact absurd rfl hne
  · rw [exec_eq] at h
    cases h
    split
    · rfl
    · exact effect_keeps_res (by obtain rfl | rfl | rfl := hi <;> rfl) s
  · exact ⟨_, step_of_write turn fun _ => rfl, rfl, rfl⟩

/-- Settles O47: of the steps that `StepCase` lists, only reset and a store touch OPA to OPD or M, and a store touches
the register it names only. -/
theorem operandsAndBlockAreWrittenByTheHostOnly : Obligations.OperandsAndBlockAreWrittenByTheHostOnly := by
  refine ⟨fun i s t h => ?_, fun s t r hr h hne => ?_⟩
  · rw [exec_eq] at h
    cases h
    split
    · exact ⟨rfl, rfl, rfl, rfl, rfl⟩
    · obtain ⟨ho, hm⟩ := effect_keeps_operands i s
      simp only [State.operands, Operands.mk.injEq] at ho
      obtain ⟨ha, hb, hc, hd⟩ := ho
      exact ⟨ha, hb, hc, hd, hm⟩
  · cases stepCase_of_step h with
    | reset rest turn =>
      refine .inl ⟨⟨rest, turn⟩, ?_⟩
      obtain rfl | rfl | rfl | rfl | ⟨j, rfl⟩ := hr <;> simp [readReg]
    | stored r' v rest turn idle store =>
      rw [readReg_written store] at hne ⊢
      split_ifs at hne ⊢ with hrr
      · subst hrr
        exact .inr ⟨idle, v, rest, turn, rfl⟩
      · exact (hne (readReg_eq_of_operands (by rfl) (by rfl) hr)).elim
    | answered | rejected | cleared | reloaded | accepted | result | illegal | ticked | completed | waited =>
      exact (hne (readReg_eq_of_operands (by rfl) (by rfl) hr)).elim

/-- Settles O48: BUSY and DONE are written by reset, the acceptance and the completion of a COMPRESS, and DONE by a
STATUS write too; every other step that `StepCase` lists keeps both. -/
theorem busyAndDoneChangeOnlyAsListed : Obligations.BusyAndDoneChangeOnlyAsListed := by
  intro s t h
  cases stepCase_of_step h with
  | reset rest turn => exact ⟨by simp, fun _ _ => .inr ⟨rest, turn⟩, by simp, fun _ _ => .inr (.inr ⟨rest, turn⟩)⟩
  | accepted rest turn idle =>
    exact ⟨fun _ _ => ⟨rest, turn⟩, by simp, by simp, fun _ _ => .inl ⟨⟨rest, turn⟩, idle, rfl⟩⟩
  | completed turn => exact ⟨by simp, fun _ _ => .inl ⟨turn, rfl⟩, fun _ _ => ⟨turn, rfl⟩, by simp⟩
  | cleared v rest turn =>
    refine ⟨by simp_all, by simp_all, by simp_all, fun hd hd' => .inr (.inl ⟨v, rest, turn, ?_⟩)⟩
    simpa [hd] using hd'
  | stored r v rest turn idle store => simp_all [written_busy_of_stores store, written_done_of_stores store]
  | answered | rejected | reloaded | result | illegal | ticked | waited => simp_all

/-- Settles O49: ERR_BUSY is set by a rejected write and ERR_CMD by an illegal word, each is cleared by a STATUS write
and by reset, and every other step that `StepCase` lists keeps both. -/
theorem errorBitsAreSticky : Obligations.ErrorBitsAreSticky := by
  intro s t h
  cases stepCase_of_step h with
  | reset rest turn => exact ⟨by simp, by simp, fun _ _ => .inr ⟨rest, turn⟩, fun _ _ => .inr ⟨rest, turn⟩⟩
  | rejected r v rest turn busy gate =>
    exact ⟨fun _ _ => ⟨busy, r, v, rest, gate, turn⟩, by simp_all, by simp_all, by simp_all⟩
  | illegal v rest turn idle word =>
    exact ⟨by simp_all, fun _ _ => ⟨idle, v, rest, word, turn⟩, by simp_all, by simp_all⟩
  | cleared v rest turn =>
    refine ⟨by simp_all, by simp_all, fun he he' => .inl ⟨v, rest, turn, ?_⟩, fun he he' => .inl ⟨v, rest, turn, ?_⟩⟩
    · simpa [he] using he'
    · simpa [he] using he'
  | stored r v rest turn idle store => simp_all [written_errBusy_of_stores store, written_errCmd_of_stores store]
  | answered | reloaded | accepted | result | ticked | completed | waited => simp_all

end

section
/-! PROOFS. The values after reset (10_state.md R36), the STATUS register (R24), and the constants K and IV as roots of
primes (R31, R32). -/

namespace Sys2Proof.Machine

/-- The first 64 primes (R31). -/
def firstPrimes : List Nat :=
  [2, 3, 5, 7, 11, 13, 17, 19, 23, 29, 31, 37, 41, 43, 47, 53] ++
  [59, 61, 67, 71, 73, 79, 83, 89, 97, 101, 103, 107, 109, 113, 127, 131] ++
  [137, 139, 149, 151, 157, 163, 167, 173, 179, 181, 191, 193, 197, 199, 211, 223] ++
  [227, 229, 233, 239, 241, 251, 257, 263, 269, 271, 277, 281, 283, 293, 307, 311]

/-- A number up to 311 is prime when no number up to 17 divides it, since 18² is larger. -/
theorem prime_iff_of_le_311 {q : Nat} (hq : q ≤ 311) : q.Prime ↔ 2 ≤ q ∧ ∀ m < 18, 2 ≤ m → m < q → ¬m ∣ q := by
  refine ⟨fun hp => ⟨hp.two_le, fun m _ hm hmq hd => ?_⟩,
    fun ⟨h2, h⟩ => Nat.prime_def_le_sqrt.2 ⟨h2, fun m hm hs => ?_⟩⟩
  · have := (Nat.dvd_prime hp).1 hd
    omega
  · have hsq : m * m ≤ q := Nat.le_sqrt.1 hs
    exact h m (by nlinarith) hm (by nlinarith)

/-- Trial division over the whole range. -/
theorem mem_firstPrimes_iff_trial :
    ∀ q < 312, q ∈ firstPrimes ↔ 2 ≤ q ∧ ∀ m < 18, 2 ≤ m → m < q → ¬m ∣ q := by decide +kernel

theorem mem_firstPrimes (q : Nat) : q ∈ firstPrimes ↔ q.Prime ∧ q ≤ 311 := by
  by_cases hq : q ≤ 311
  · simp only [hq, and_true, prime_iff_of_le_311 hq, mem_firstPrimes_iff_trial q (by omega)]
  · have hall : ∀ q ∈ firstPrimes, q ≤ 311 := by decide
    exact ⟨fun h => absurd (hall q h) hq, fun h => absurd h.2 hq⟩

/-- The k-th root of p · 2^(32k), rounded down, from its 32 fractional bits: the whole part is below 20 for p ≤ 311. -/
def rootWith (k p : Nat) (frac : Word) : Nat := Nat.findGreatest (fun c => c ^ k ≤ p) 20 * 2 ^ 32 + frac.toNat

theorem ofNat_rootWith (k p : Nat) (frac : Word) : BitVec.ofNat 32 (rootWith k p frac) = frac := by
  apply BitVec.eq_of_toNat_eq
  simp [rootWith, Nat.mod_eq_of_lt frac.isLt]

/-- R31's check. -/
theorem K_cubeRoot : ∀ i : Fin 64,
    rootWith 3 (firstPrimes.getD i.val 0) K[i.val] ^ 3 ≤ firstPrimes.getD i.val 0 * 2 ^ 96 ∧
      firstPrimes.getD i.val 0 * 2 ^ 96 < (rootWith 3 (firstPrimes.getD i.val 0) K[i.val] + 1) ^ 3 := by
  decide

/-- R32's check. -/
theorem IV_squareRoot : ∀ i : Fin 8,
    rootWith 2 (firstPrimes.getD i.val 0) IV[i.val] ^ 2 ≤ firstPrimes.getD i.val 0 * 2 ^ 64 ∧
      firstPrimes.getD i.val 0 * 2 ^ 64 < (rootWith 2 (firstPrimes.getD i.val 0) IV[i.val] + 1) ^ 2 := by
  decide

/-- The four bits of STATUS (R24). -/
theorem statusWord_bits (s : State) :
    (statusWord s).getLsbD 0 = s.busy ∧ (statusWord s).getLsbD 1 = s.done ∧ (statusWord s).getLsbD 2 = s.errBusy ∧
      (statusWord s).getLsbD 3 = s.errCmd := by
  simp only [statusWord, BitVec.getLsbD_setWidth, BitVec.getLsbD_append, BitVec.getLsbD_ofBool]
  simp

/-- Bits 31:4 of STATUS read 0 (R24). -/
theorem statusWord_high (s : State) {k : Nat} (hk : 4 ≤ k) : (statusWord s).getLsbD k = false := by
  rw [statusWord, BitVec.getLsbD_setWidth, BitVec.getLsbD_of_ge _ _ hk, Bool.and_false]

end Sys2Proof.Machine

open Sys2Proof Sys2Proof.Machine

/-- Settles O1: every value of R36 is a field of `State.reset` or an entry of a constant. -/
theorem resetLeavesTheSpecValues : Obligations.ResetLeavesTheSpecValues := by
  have hm (j : Fin 16) : State.reset.m[j.val] = 0 := by simp [State.reset]
  exact ⟨rfl, rfl, rfl, rfl, rfl, rfl, rfl, rfl, rfl, rfl, rfl, rfl, rfl, hm, fun _ => rfl, rfl, rfl, rfl, rfl, rfl⟩

/-- Settles O10: the STATUS bits are the read view's, and a STATUS write, which BUSY does not gate, is `writeStatus`. -/
theorem statusIsWriteOneToClear : Obligations.StatusIsWriteOneToClear := by
  refine ⟨fun s => ?_, rfl, fun s v rest turn => ?_⟩
  · obtain ⟨h0, h1, h2, h3⟩ := statusWord_bits s
    exact ⟨h0, h1, h2, h3, fun k hk => statusWord_high s hk⟩
  · have hclear (b c : Bool) : (b && !c) = if c then false else b := by cases c <;> simp
    exact ⟨_, step_of_write turn fun _ => rfl, hclear _ _, hclear _ _, hclear _ _, rfl, rfl, rfl⟩

/-- Settles O2: the primes by trial division, and each root from its whole part and the constant's fractional bits. -/
theorem romsHoldTheRootsOfThePrimes : Obligations.RomsHoldTheRootsOfThePrimes :=
  ⟨firstPrimes, rfl, by decide, mem_firstPrimes,
    fun i => ⟨_, (K_cubeRoot i).1, (K_cubeRoot i).2, (ofNat_rootWith _ _ _).symm⟩,
    fun i => ⟨_, (IV_squareRoot i).1, (IV_squareRoot i).2, (ofNat_rootWith _ _ _).symm⟩⟩

end

section
/-! PROOFS. The register window (20_memory.md R39 to R46): which offset reaches which register, what a read answers, and
what a write to a register leaves. -/

namespace Sys2Proof.Machine

/-! ### Offsets (R39, R40) -/

theorem regOffset_m_toNat (j : Fin 16) : (regOffset (.m j)).toNat = 0x40 + 4 * j.val := by simp [regOffset]; omega

theorem regOffset_h_toNat (i : Fin 8) : (regOffset (.h i)).toNat = 0x80 + 4 * i.val := by simp [regOffset]; omega

/-- Every register stands at a multiple of 4 outside the reserved ranges. -/
theorem regOffset_mapped (r : Reg) : (regOffset r).toNat % 4 = 0 ∧ ¬ReservedOffset (regOffset r) := by
  cases r with
  | m j => rw [ReservedOffset, regOffset_m_toNat]; omega
  | h i => rw [ReservedOffset, regOffset_h_toNat]; omega
  | _ => decide

/-- R118's three causes of a BusError: no register is reached. -/
theorem target_eq_none {off : BitVec 8} {n : Nat} (h : n ≠ 4 ∨ off.toNat % 4 ≠ 0 ∨ ReservedOffset off) :
    target off n = none := by
  cases ht : target off n with
  | none => rfl
  | some r =>
    obtain ⟨rfl, rfl⟩ := target_eq_some_iff.1 ht
    obtain ⟨haligned, hres⟩ := regOffset_mapped r
    simp [haligned, hres] at h

/-! ### Reads (R43) -/

/-- What a read returns does not depend on what stands on the bus. -/
theorem SameEngine.readReg_eq {s t : State} (h : SameEngine s t) (r : Reg) : readReg r t = readReg r s := by
  rw [h]; cases r <;> rfl

theorem memRead_of_busError {off : BitVec 8} {n : Nat} (h : n ≠ 4 ∨ off.toNat % 4 ≠ 0 ∨ ReservedOffset off) (s : State) :
    memRead off n s = .busError off := by
  rw [memRead, target_eq_none h]

theorem memRead_regOffset {off : BitVec 8} {n : Nat} (r : Reg) (hn : n = 4) (hoff : off = regOffset r) (s : State) :
    memRead off n s = .data (readReg r s) := by
  rw [memRead, hn, hoff, target_regOffset]

theorem SameEngine.memRead_eq {s t : State} (h : SameEngine s t) (off : BitVec 8) (n : Nat) :
    memRead off n t = memRead off n s := by
  unfold memRead
  split
  · rw [h.readReg_eq]
  · rfl

/-- A read is performed at once, BUSY or not, and only answers. -/
theorem step_of_read {s : State} {off : BitVec 8} {n : Nat} {rest : List BusEvent}
    (turn : HostTurn s (.read off n) rest) : step s = .next (respond (memRead off n s) (takeEvent rest s)) := by
  rw [step_of_hostTurn turn, performed, SameEngine.memRead_eq (s := s) rfl]

/-! ### Writes (R44, R46) -/

/-- A STATUS write without a bit of DONE, ERR_BUSY or ERR_CMD changes nothing (R46). -/
theorem writeStatus_of_no_clear {v : Word} (hv : v &&& 0x0000000E = 0) (s : State) : writeStatus v s = s := by
  have hbit (k : Nat) (hk : (0x0000000E#32).getLsbD k = true) : v.getLsbD k = false := by
    simpa [hk] using congrArg (fun w : Word => w.getLsbD k) hv
  simp only [writeStatus, hbit 1 rfl, hbit 2 rfl, hbit 3 rfl, Bool.not_false, Bool.and_true]

/-- Nor does a store change the model's counters or what stands on the bus. -/
theorem written_counters_of_stores {r : Reg} (hr : r.stores = true) (v : Word) (s : State) :
    (written r v s).cyclesLeft = s.cyclesLeft ∧ (written r v s).freeCtr = s.freeCtr ∧
      (written r v s).queue = s.queue ∧ (written r v s).responses = s.responses := by
  rw [written_of_stores hr]
  exact ⟨rfl, rfl, rfl, rfl⟩

/-- The CMD write of a command's word runs `exec` after the write is answered; with BUSY = 1 both are the rejection of
R120 (log entry 10). -/
theorem performed_cmdWrite {v : Word} {i : Instr} (hd : decode v = .ok i) (s : State) :
    Host.Outcome.next (performed (.write (regOffset .cmd) 4 v) s) = exec i (respond .done s) := by
  have hexec : executed v (respond .done s) = effect i (respond .done s) := by rw [executed, hd]
  rw [exec_eq, ← hexec, performed, target_regOffset]
  cases hb : s.busy <;> simp [hb, Reg.gatedByBusy, written]

theorem step_of_cmdTurn {s : State} {v : Word} {i : Instr} {rest : List BusEvent} (hd : decode v = .ok i)
    (turn : CmdTurn s v rest) : step s = exec i (respond .done (takeEvent rest s)) := by
  rw [step_of_hostTurn turn, performed_cmdWrite hd]

/-- `withFetchWord` makes the word's CMD write the host's next transaction (log entry 5). -/
theorem cmdTurn_withFetchWord (s : State) (v : Word) : CmdTurn (s.withFetchWord 32 v.toNat) v s.queue := by
  have hv : BitVec.ofNat 32 (v.toNat % 2 ^ 32) = v := by
    rw [Nat.mod_eq_of_lt v.isLt, BitVec.ofNat_toNat, BitVec.setWidth_eq]
  rw [State.withFetchWord, hv]
  exact ⟨rfl, fun _ => Nat.succ_ne_zero _⟩

end Sys2Proof.Machine

open Sys2Proof Sys2Proof.Machine

/-- Settles O5: the offsets are `regOffset`'s, `target` inverts it, and no register stands in a reserved range. -/
theorem windowMapsEachRegisterOnce : Obligations.WindowMapsEachRegisterOnce :=
  ⟨rfl, rfl, rfl, rfl, rfl, rfl, rfl, rfl, rfl, regOffset_m_toNat, regOffset_h_toNat,
    fun _ _ => by simp [target_eq_some_iff], fun _ _ h => target_eq_none (.inr (.inr h))⟩

/-- Settles O7: a read's step is its answer alone, and the answer is BusError or the read view of the register whose
offset it names. -/
theorem readReturnsTheRegister : Obligations.ReadReturnsTheRegister := by
  intro s off n rest turn
  exact ⟨_, _, step_of_read turn, rfl, rfl, rfl, fun h => memRead_of_busError h s,
    fun hn ho => memRead_regOffset .id hn ho s, fun hn ho => memRead_regOffset .version hn ho s,
    fun hn ho => memRead_regOffset .cmd hn ho s, fun hn ho => memRead_regOffset .status hn ho s,
    fun hn ho => memRead_regOffset .opa hn ho s, fun hn ho => memRead_regOffset .opb hn ho s,
    fun hn ho => memRead_regOffset .opc hn ho s, fun hn ho => memRead_regOffset .opd hn ho s,
    fun hn ho => memRead_regOffset .res hn ho s,
    fun j hn ho => memRead_regOffset (.m j) hn (BitVec.eq_of_toNat_eq (ho.trans (regOffset_m_toNat j).symm)) s,
    fun i hn ho => memRead_regOffset (.h i) hn (BitVec.eq_of_toNat_eq (ho.trans (regOffset_h_toNat i).symm)) s⟩

/-- Settles O8: the step is the store, which is read back from its register only and leaves all else. -/
theorem idleWriteStoresTheValue : Obligations.IdleWriteStoresTheValue := by
  intro s r v rest hr hb turn
  obtain ⟨hcycles, hctr, hqueue, hresp⟩ := written_counters_of_stores hr v (respond .done (takeEvent rest s))
  refine ⟨_, step_of_write turn (by simp [hb]), by simp [readReg_written hr], fun r' hne => ?_,
    written_busy_of_stores hr v _, written_seq_of_stores hr v _, hcycles, hctr, hqueue, hresp⟩
  rw [readReg_written hr, if_neg hne]
  exact SameEngine.readReg_eq rfl r'

/-- Settles O9: a write to a read-only register, or to STATUS without a bit to clear, is performed and changes nothing,
and CMD reads 0. -/
theorem readOnlyAndReservedBitsIgnoreWrites : Obligations.ReadOnlyAndReservedBitsIgnoreWrites := by
  refine ⟨fun s r v rest hr turn => ?_, fun s rest turn => ?_, fun s v rest hv turn => ?_⟩
  · obtain rfl | rfl | rfl := hr <;> exact ⟨_, step_of_write turn fun _ => rfl, rfl, rfl, rfl⟩
  · exact ⟨_, step_of_read turn, rfl, rfl⟩
  · refine ⟨_, step_of_write turn fun _ => rfl, ?_⟩
    rw [written, writeStatus_of_no_clear hv]
    exact ⟨rfl, rfl, rfl⟩

/-- Settles O17: the step performs the CMD write, which is `exec i`; `withFetchWord` makes that write the next one. -/
theorem stepRunsTheDecodedCommand : Obligations.StepRunsTheDecodedCommand :=
  ⟨fun _ _ _ _ hd turn => step_of_cmdTurn hd turn,
    fun s v _ hd => step_of_cmdTurn hd (cmdTurn_withFetchWord s v)⟩

end

section
/-! PROOFS. Runs of the engine: repeating a command (20_memory.md R48), waiting beside a host that only reads, and the
completion of a pending COMPRESS beside a host that does not reset (R53). -/

namespace Sys2Proof.Machine

/-! ### Repeating a command (R48) -/

/-- A command but COMPRESS leaves the operands it reads, so its effect a second time is nothing new. -/
theorem effect_idempotent {i : Instr} (hi : i ≠ .compress) (s : State) : effect i (effect i s) = effect i s := by
  cases i
  case compress => exact absurd rfl hi
  case rotr imm | shr imm => cases hs : shiftInRange imm <;> simp only [effect, hs] <;> rfl
  all_goals rfl

/-- Only a COMPRESS sets BUSY. -/
theorem effect_keeps_busy {i : Instr} (hi : i ≠ .compress) (s : State) : (effect i s).busy = s.busy := by
  rcases effect_cases i s with ⟨-, h⟩ | ⟨-, h⟩ | ⟨rfl, -⟩ | ⟨-, v, h⟩ | ⟨-, h⟩
  case inr.inr.inl => exact absurd rfl hi
  all_goals simp [h]

theorem exec_of_idle (i : Instr) {s : State} (hb : s.busy = false) : exec i s = .next (effect i s) := by
  rw [exec_eq_command, command_of_idle _ hb]

/-! ### Waiting beside a host that only reads -/

/-- While the host only reads, a step is a wait. -/
theorem waited_of_step {s t : State} (hq : OnlyReads s.queue) (h : step s = .next t) : Waited s t ∧ OnlyReads t.queue := by
  obtain ⟨ev, rest, turn, rfl⟩ | ⟨turn, rfl⟩ | ⟨-, rfl⟩ := step_cases h
  · obtain ⟨hqueue, -⟩ := turn
    rw [hqueue] at hq
    obtain ⟨off, n, rfl⟩ := hq ev List.mem_cons_self
    exact ⟨waited_read _ rest s, fun e he => hq e (List.mem_cons_of_mem _ he)⟩
  · exact ⟨waited_engineCycle turn.1, by rwa [engineCycle_queue]⟩
  · exact ⟨Waited.refl _, hq⟩

theorem waited_of_stepsTo (k : Nat) {s t : State} (hq : OnlyReads s.queue) (h : stepsTo k s t) : Waited s t := by
  induction k generalizing s with
  | zero => rw [show t = s from h]; exact Waited.refl s
  | succ k ih =>
    obtain ⟨u, hsu, hut⟩ := h
    obtain ⟨hw, hqu⟩ := waited_of_step hq hsu
    exact hw.trans (ih hqu hut)

theorem onlyReads_of_empty {q : List BusEvent} (hq : q = []) : OnlyReads q := by simp [OnlyReads, hq]

/-- An accepted COMPRESS that only reads accompanied has, once BUSY = 0, written Compress(H, M) (R82). -/
theorem compressed_of_stepsTo (k : Nat) {s t u : State} (ht : SameEngine (acceptCompress s) t) (hq : OnlyReads t.queue)
    (h : stepsTo k t u) (hb : u.busy = false) : u.h = compress s.h s.m ∧ u.m = s.m := by
  have hw : Waited t u := waited_of_stepsTo k hq h
  have hh : u.h = settledH t := by simpa [settledH, hb] using hw.h
  exact ⟨by rw [hh, ht]; rfl, by rw [hw.m, ht]; rfl⟩

/-! ### The completion of a pending COMPRESS (R53) -/

theorem exists_step (s : State) : ∃ t, step s = .next t := by
  obtain ⟨ev, rest, turn⟩ | turn | turn := turn_cases s
  · exact ⟨_, step_of_hostTurn turn⟩
  · exact ⟨_, step_of_engineTurn turn⟩
  · exact ⟨_, step_of_idleTurn turn⟩

/-- The steps that may still come before a pending COMPRESS completes: one for each engine cycle before the last and one
for each transaction of the host. -/
def stepsAhead (s : State) : Nat := s.cyclesLeft + s.queue.length

/-- A step that leaves a COMPRESS pending: H and M stay, and it is one of the steps ahead. -/
structure StillPending (s t : State) : Prop where
  busy : t.busy = true
  h : t.h = s.h
  m : t.m = s.m
  ahead : stepsAhead t < stepsAhead s
  queue : ∃ done, s.queue = done ++ t.queue

/-- A transaction that BUSY holds off, or that writes no more than STATUS, leaves the COMPRESS pending. -/
theorem stillPending_of_frame {s t : State} {ev : BusEvent} {rest : List BusEvent} (turn : HostTurn s ev rest)
    (hb : t.busy = true) (hh : t.h = s.h) (hm : t.m = s.m) (hc : t.cyclesLeft = s.cyclesLeft) (hq : t.queue = rest) :
    StillPending s t where
  busy := hb
  h := hh
  m := hm
  ahead := by simp [stepsAhead, hc, hq, turn.1]
  queue := ⟨[ev], by rw [hq]; exact turn.1⟩

/-- Everything a step can do while a COMPRESS is pending and no reset is on its way. -/
theorem step_of_pending {s t : State} (hb : s.busy = true) (hr : .reset ∉ s.queue) (h : step s = .next t) :
    t = complete s ∨ StillPending s t := by
  cases stepCase_of_step h with
  | reset rest turn => simp [turn.1] at hr
  | answered ev rest r turn => exact .inr (stillPending_of_frame turn hb rfl rfl rfl rfl)
  | rejected r v rest turn => exact .inr (stillPending_of_frame turn hb rfl rfl rfl rfl)
  | cleared v rest turn => exact .inr (stillPending_of_frame turn hb rfl rfl rfl rfl)
  | ticked turn more => exact .inr ⟨hb, rfl, rfl, by simp only [stepsAhead]; omega, ⟨[], rfl⟩⟩
  | completed => exact .inl rfl
  | stored r v rest turn idle | reloaded rest turn idle | accepted rest turn idle | result i v rest turn idle
  | illegal v rest turn idle => simp [idle] at hb
  | waited turn => simp [turn.1] at hb

/-- A pending COMPRESS runs out of steps ahead, and the step after them is its completion. -/
theorem completes_of_stepsAhead (n : Nat) {s : State} (hn : stepsAhead s < n) (hb : s.busy = true)
    (hr : .reset ∉ s.queue) :
    ∃ (k : Nat) (t : State), k ≤ n ∧ stepsTo k s t ∧ t.busy = false ∧ t.done = true ∧ t.h = compress s.h s.m ∧
      t.m = s.m ∧ ∃ done, s.queue = done ++ t.queue := by
  induction n generalizing s with
  | zero => omega
  | succ n ih =>
    obtain ⟨u, hsu⟩ := exists_step s
    obtain rfl | ⟨hbu, hh, hm, hahead, done, hq⟩ := step_of_pending hb hr hsu
    · exact ⟨1, _, by omega, ⟨_, hsu, rfl⟩, rfl, rfl, rfl, rfl, [], rfl⟩
    · obtain ⟨k, t, hk, hut, hbt, hdt, hht, hmt, done', hq'⟩ :=
        ih (by omega) hbu fun hmem => hr (by simp [hq, hmem])
      exact ⟨k + 1, t, by omega, ⟨u, hsu, hut⟩, hbt, hdt, by rw [hht, hh, hm], hmt.trans hm, done ++ done',
        by rw [hq, hq', List.append_assoc]⟩

end Sys2Proof.Machine

open Sys2Proof Sys2Proof.Machine

/-- Settles O39: every effect but COMPRESS's is idempotent, and a COMPRESS that nothing disturbs writes Compress of the
H and M at its acceptance, each time it is accepted. -/
theorem repeatingACommand : Obligations.RepeatingACommand := by
  refine ⟨fun i s t hi hb h => ?_, fun s t u h hb ⟨k, hk, hbu, hqu⟩ => ?_⟩
  · rw [exec_of_idle i hb] at h
    cases h
    rw [exec_of_idle i ((effect_keeps_busy hi s).trans hb), effect_idempotent hi]
  · rw [exec_of_idle .compress hb] at h
    cases h
    obtain ⟨hh, hm⟩ := compressed_of_stepsTo k rfl (onlyReads_of_empty rfl) hk hbu
    refine ⟨hh, hm, _, exec_of_idle .compress hbu, fun w k' hk' hbw => ?_⟩
    obtain ⟨hh', -⟩ := compressed_of_stepsTo k' (t := acceptCompress u) rfl (onlyReads_of_empty hqu) hk' hbw
    rw [hh', hh, hm]

/-- Settles O54: while a COMPRESS is pending each step is its completion or one of the finitely many before it, which
leave H and M as they are. -/
theorem pendingCompressCompletes : Obligations.PendingCompressCompletes :=
  fun _ hb hr => completes_of_stepsAhead _ (Nat.lt_succ_self _) hb hr

end

section
/-! PROOFS. Several engines (20_memory.md R38, R40; 60_exceptions.md R130): which engine an access arrives at, and what a
step of one engine leaves of the platform. -/

namespace Sys2Proof.Machine

/-- An address in the window has its offset there (R38). -/
theorem windowOffset_of_mem {base addr : Nat} (h : base ≤ addr ∧ addr < base + 0x100) :
    windowOffset base addr = some (BitVec.ofNat 8 (addr - base)) := if_pos h

/-- An address outside the window has none (R40). -/
theorem windowOffset_eq_none {base addr : Nat} (h : ¬(base ≤ addr ∧ addr < base + 0x100)) :
    windowOffset base addr = none := if_neg h

/-- An access outside an engine's window does not reach it (R40). -/
theorem arrive_of_outside {e : EngineAt} {addr : Nat} (a : Access) (h : ¬(e.base ≤ addr ∧ addr < e.base + 0x100)) :
    e.arrive addr a = e := by
  rw [EngineAt.arrive, windowOffset_eq_none h]

/-- An access inside it joins the engine's queue (R52). -/
theorem arrive_queue_of_inside {e : EngineAt} {addr : Nat} (a : Access) (h : e.base ≤ addr ∧ addr < e.base + 0x100) :
    (e.arrive addr a).engine.queue = e.engine.queue ++ [a.at (BitVec.ofNat 8 (addr - e.base))] := by
  rw [EngineAt.arrive, windowOffset_of_mem h]

/-- Two engines of a well-formed platform have their windows at different multiples of 0x100 (log entry 13). -/
theorem Platform.wf.bases {p : Platform} (hp : p.wf) {j k : Nat} {e f : EngineAt} (hj : p[j]? = some e)
    (hk : p[k]? = some f) (hjk : j ≠ k) : e.base % 0x100 = 0 ∧ f.base % 0x100 = 0 ∧ e.base ≠ f.base := by
  obtain ⟨-, haligned, hnodup⟩ := hp
  refine ⟨haligned e (List.mem_of_getElem? hj), haligned f (List.mem_of_getElem? hk), fun heq => hjk ?_⟩
  have hlen : j < (p.map (·.base)).length := by simpa using (List.getElem?_eq_some_iff.1 hj).1
  exact (List.getElem?_inj hlen hnodup).1 (by simp [hj, hk, heq])

/-- A step of engine k writes place k of the platform only. -/
theorem Platform.stepAt_eq_set {p p' : Platform} {k : Nat} (h : p.stepAt k = some p') : ∃ e, p' = p.set k e := by
  unfold Platform.stepAt at h
  split at h
  · split at h
    · exact ⟨_, (Option.some.inj h).symm⟩
    · cases h
    · cases h
  · cases h

end Sys2Proof.Machine

open Sys2Proof Sys2Proof.Machine

/-- Settles O60: an access reaches the engine whose window holds its address, windows at different multiples of 0x100 are
disjoint, and a step of one engine writes its own place only. -/
theorem enginesAreIndependent : Obligations.EnginesAreIndependent := by
  refine ⟨fun e addr a h => arrive_of_outside a (by omega), fun e addr a h h' => arrive_queue_of_inside a ⟨h, h'⟩,
    fun p addr j k a e f hp hj hk hjk he => arrive_of_outside a fun hf => he (arrive_of_outside a ?_),
    fun p p' j k h hjk => ?_⟩
  · obtain ⟨hbe, hbf, hne⟩ := hp.bases hj hk hjk
    omega
  · obtain ⟨e, rfl⟩ := Platform.stepAt_eq_set h
    exact List.getElem?_set_ne hjk.symm

end

section
/-! PROOFS. Decoding and encoding (30_encoding.md R59 to R72): every instruction's word decodes to it or is a shift that
is too large, and an illegal word is rejected by the name of its case. -/

namespace Sys2Proof

/-! ### Decoding an encoded instruction (R70) -/

/-- The laws `Laws.EncodedFields`, for every command at once. -/
theorem fields_of_encode (i : Instr) : Laws.EncodedFields.Statement i := by
  cases i with
  | krd imm => exact Laws.EncodedFields.krd imm
  | rotr imm => exact Laws.EncodedFields.rotr imm
  | shr imm => exact Laws.EncodedFields.shr imm
  | _ => exact ⟨rfl, rfl, rfl⟩

/-- The opcode map reads back an instruction from its own fields; only an operand out of range stops it (R62, R64). -/
theorem decodeFields_opcode_imm (i : Instr) :
    decodeFields i.opcode i.imm = if i.wf then .ok i else .error .shiftTooLarge := by
  cases i <;> rfl

theorem decode_encode (i : Instr) : decode (encode i) = if i.wf then .ok i else .error .shiftTooLarge := by
  obtain ⟨hop, himm, hrsvd⟩ := fields_of_encode i
  rw [decode, if_pos hrsvd, hop, himm, decodeFields_opcode_imm]

/-! ### The match and mask table (R64) -/

theorem opcodeTable_opcodes_nodup : (opcodeTable.map fun r => opcodeField r.pattern).Nodup := by decide

/-- No word is admitted by two rows: the rows that admit v all have v's OPCODE, and no two rows share one. -/
theorem admitting_rows_length_le_one (v : Word) : (opcodeTable.filter fun r => r.admits v).length ≤ 1 := by
  have hsame : ((opcodeTable.filter fun r => r.admits v).map fun r => opcodeField r.pattern) =
      List.replicate (opcodeTable.filter fun r => r.admits v).length (opcodeField v) :=
    List.map_eq_replicate_iff.2 fun r hr =>
      have ⟨hmem, hadm⟩ := List.mem_filter.1 hr
      (fields_of_admits hmem hadm).2.1.symm
  have hnodup := opcodeTable_opcodes_nodup.sublist ((List.filter_sublist (p := fun r => r.admits v)).map _)
  rwa [hsame, List.nodup_replicate] at hnodup

/-- The row of a command's mnemonic admits its word when the operand is legal (R62, R64). -/
theorem row_admits_encode {i : Instr} (h : i.wf = true) :
    ∃ r ∈ opcodeTable, r.admits (encode i) = true ∧ r.mnemonic = i.mnemonic := by
  cases i with
  | krd imm | rotr imm | shr imm => revert imm; decide
  | _ => decide

theorem row_of_decode {v : Word} {i : Instr} (h : decode v = .ok i) :
    ∃ r ∈ opcodeTable, r.admits v = true ∧ r.mnemonic = i.mnemonic := by
  obtain ⟨rfl, hwf⟩ := encode_of_decode h
  exact row_admits_encode hwf

theorem legal_eq_false_iff_rejected {v : Word} : legal v = false ↔ ∃ e, decode v = .error e := by
  refine ⟨fun hl => ?_, fun ⟨e, h⟩ => legal_eq_false_of_decode h⟩
  cases h : decode v with
  | error e => exact ⟨e, rfl⟩
  | ok i =>
    obtain ⟨r, hr, hadm, -⟩ := row_of_decode h
    exact absurd (List.any_eq_true.2 ⟨r, hr, hadm⟩) (by simpa [legal] using hl)

/-! ### The names of illegal words (R65, log entry 14) -/

theorem withoutImm_eq_error {imm : BitVec 6} {i : Instr} {e : IllegalWord} :
    withoutImm imm i = .error e ↔ .nonzeroImm = e ∧ imm ≠ 0 := by
  by_cases h : imm = 0 <;> simp_all [withoutImm]

theorem withShift_eq_error {imm : BitVec 6} {i : Instr} {e : IllegalWord} :
    withShift imm i = .error e ↔ .shiftTooLarge = e ∧ shiftInRange imm = false := by
  unfold withShift
  split_ifs with h <;> simp [h]

theorem shiftInRange_immField (v : Word) : shiftInRange (immField v) = false ↔ v.getLsbD 13 = true := by
  have hbit : ∀ imm : BitVec 6, shiftInRange imm = false ↔ imm.getLsbD 5 = true := by decide
  simp [hbit, immField]

/-- An OPCODE of no command is rejected whatever IMM is. With IMM = 0 the opcode map takes every assigned OPCODE. -/
theorem decodeFields_of_unassigned {op : BitVec 8} (h : ∀ i : Instr, op ≠ i.opcode) (imm : BitVec 6) :
    decodeFields op imm = .error .reservedOpcode := by
  have hzero : ∀ e, decodeFields op 0 = .error e → decodeFields op imm = .error .reservedOpcode := by
    unfold decodeFields
    split
    case h_17 => exact fun _ _ => rfl
    all_goals intro e he; cases he
  cases hd : decodeFields op 0 with
  | ok i => exact absurd (fields_of_decodeFields hd).1.symm (h i)
  | error e => exact hzero e hd

/-- The cases (b) to (d) of R65, by name, in terms of OPCODE and IMM. -/
def IllegalFields (op : BitVec 8) (imm : BitVec 6) : IllegalWord → Prop
  | .reservedBits => False
  | .reservedOpcode => ∀ i : Instr, op ≠ i.opcode
  | .nonzeroImm => (∃ i : Instr, op = i.opcode) ∧ imm ≠ 0 ∧ op ≠ 0x03 ∧ op ≠ 0x10 ∧ op ≠ 0x11
  | .shiftTooLarge => shiftInRange imm = false ∧ (op = 0x10 ∨ op = 0x11)

/-- The opcode map rejects exactly the cases (b) to (d) of R65: an assigned OPCODE is split by what its command asks of
IMM (R62), which is nothing for KRD, a shift amount for ROTR and SHR, and 0 for the others. -/
theorem decodeFields_eq_error_iff {op : BitVec 8} {imm : BitVec 6} {e : IllegalWord} :
    decodeFields op imm = .error e ↔ IllegalFields op imm e := by
  by_cases hop : ∃ i : Instr, op = i.opcode
  · obtain ⟨i, rfl⟩ := hop
    have hi : ∃ j : Instr, i.opcode = j.opcode := ⟨i, rfl⟩
    cases i with
    | krd k => cases e <;> simp_all [IllegalFields, decodeFields, Instr.opcode]
    | rotr k | shr k =>
      refine withShift_eq_error.trans ?_
      cases e <;> simp_all [IllegalFields, Instr.opcode]
    | _ =>
      refine withoutImm_eq_error.trans ?_
      cases e <;> simp_all [IllegalFields, Instr.opcode]
  · have h : ∀ i : Instr, op ≠ i.opcode := fun i hi => hop ⟨i, hi⟩
    have hshift : ¬(op = 0x10 ∨ op = 0x11) := not_or.2 ⟨h (.rotr 0), h (.shr 0)⟩
    rw [decodeFields_of_unassigned h]
    cases e <;> simp_all [IllegalFields]

theorem decode_eq_error_iff {v : Word} {e : IllegalWord} :
    decode v = .error e ↔
      (rsvdField v ≠ 0 ∧ .reservedBits = e) ∨ (rsvdField v = 0 ∧ IllegalFields (opcodeField v) (immField v) e) := by
  by_cases h : rsvdField v = 0 <;> simp_all [decode, decodeFields_eq_error_iff]

theorem decode_eq_reservedBits_iff {v : Word} : decode v = .error .reservedBits ↔ rsvdField v ≠ 0 := by
  simp [decode_eq_error_iff, IllegalFields]

theorem decode_eq_reservedOpcode_iff {v : Word} :
    decode v = .error .reservedOpcode ↔ rsvdField v = 0 ∧ ∀ i : Instr, opcodeField v ≠ i.opcode := by
  simp [decode_eq_error_iff, IllegalFields]

theorem decode_eq_nonzeroImm_iff {v : Word} :
    decode v = .error .nonzeroImm ↔ rsvdField v = 0 ∧ (∃ i : Instr, opcodeField v = i.opcode) ∧
      immField v ≠ 0 ∧ opcodeField v ≠ 0x03 ∧ opcodeField v ≠ 0x10 ∧ opcodeField v ≠ 0x11 := by
  simp [decode_eq_error_iff, IllegalFields]

theorem decode_eq_shiftTooLarge_iff {v : Word} :
    decode v = .error .shiftTooLarge ↔
      rsvdField v = 0 ∧ v.getLsbD 13 = true ∧ (opcodeField v = 0x10 ∨ opcodeField v = 0x11) := by
  simp [decode_eq_error_iff, IllegalFields, shiftInRange_immField]

/-- R65: a word is illegal exactly in the cases (a) to (d). Several of them may hold; the word is then rejected under the
first in the order RSVD, opcode, IMM (log entry 14), which is how the proof finds its name. -/
theorem legal_eq_false_iff_fields {v : Word} : legal v = false ↔
    (rsvdField v ≠ 0 ∨ (∀ i : Instr, opcodeField v ≠ i.opcode) ∨
     (immField v ≠ 0 ∧ opcodeField v ≠ 0x03 ∧ opcodeField v ≠ 0x10 ∧ opcodeField v ≠ 0x11) ∨
     (v.getLsbD 13 = true ∧ (opcodeField v = 0x10 ∨ opcodeField v = 0x11))) := by
  rw [legal_eq_false_iff_rejected]
  constructor
  · rintro ⟨_ | _ | _ | _, h⟩
    · exact .inl (decode_eq_reservedBits_iff.1 h)
    · exact .inr (.inl (decode_eq_reservedOpcode_iff.1 h).2)
    · obtain ⟨-, -, himm⟩ := decode_eq_nonzeroImm_iff.1 h
      exact .inr (.inr (.inl himm))
    · exact .inr (.inr (.inr (decode_eq_shiftTooLarge_iff.1 h).2))
  · intro h
    by_cases hrsvd : rsvdField v = 0
    · by_cases hop : ∃ i : Instr, opcodeField v = i.opcode
      · rcases h with h | h | h | h
        · exact absurd hrsvd h
        · exact absurd hop (by simpa using h)
        · exact ⟨_, decode_eq_nonzeroImm_iff.2 ⟨hrsvd, hop, h⟩⟩
        · exact ⟨_, decode_eq_shiftTooLarge_iff.2 ⟨hrsvd, h⟩⟩
      · exact ⟨_, decode_eq_reservedOpcode_iff.2 ⟨hrsvd, fun i hi => hop ⟨i, hi⟩⟩⟩
    · exact ⟨_, decode_eq_reservedBits_iff.2 hrsvd⟩

end Sys2Proof

open Sys2Proof

/-- Settles O15: a decoded word is its instruction's encoding, and an encoding decodes unless its operand is out of
range. -/
theorem decodeAndEncodeAgree : Obligations.DecodeAndEncodeAgree := by
  refine ⟨fun v i => ⟨fun h => (encode_of_decode h).symm, ?_⟩, fun i h => ?_⟩
  · rintro ⟨hwf, rfl⟩
    rw [decode_encode, if_pos hwf]
  · simp [decode_encode, h]

/-- Settles O14: the rows of the table have different opcodes, a decoded word is admitted by its command's row, and each
name of a rejection stands for one case of R65. -/
theorem wordIsLegalIffOneRowAdmitsIt : Obligations.WordIsLegalIffOneRowAdmitsIt :=
  ⟨admitting_rows_length_le_one, fun _ _ => row_of_decode, fun _ => decode_of_legal,
    fun _ => legal_eq_false_iff_fields, fun _ => decode_eq_reservedBits_iff, fun _ => decode_eq_reservedOpcode_iff,
    fun _ => decode_eq_nonzeroImm_iff, fun _ => decode_eq_shiftTooLarge_iff⟩

/-- Settles O16: the decoder run on each vector. -/
theorem specWordsDecodeAsListed : Obligations.SpecWordsDecodeAsListed := by
  unfold Obligations.SpecWordsDecodeAsListed
  decide

end

section
/-! PROOFS. The compression function (40_block_commands.md R78 to R80): the schedule as the one solution of its
recurrence, and a round over the library's rotations. -/

namespace Sys2Proof.Machine

/-! ### The schedule (R78) -/

/-- The equation at entry i reads earlier entries only, so the 64 equations have one solution. -/
theorem eq_expand_iff {m : Vector Word 16} {w : Vector Word 64} :
    w = expand m ↔ ∀ i : Fin 64, w[i.val] = scheduleWord m w i := by
  refine ⟨fun h => h ▸ expand_getElem m, fun hw => schedule_ext fun i => ?_⟩
  induction i using WellFoundedLT.induction with
  | _ i ih => rw [hw, expand_getElem, scheduleWord_congr m i ih]

theorem scheduleWord_of_lt {m : Vector Word 16} {w : Vector Word 64} {i : Fin 64} (hi : i.val < 16) :
    scheduleWord m w i = m[i.val] := dif_pos hi

theorem scheduleWord_add_sixteen (m : Vector Word 16) (w : Vector Word 64) (i : Fin 48) :
    scheduleWord m w ⟨i.val + 16, by omega⟩ =
      w[i.val] + ssig0 w[i.val + 1] + w[i.val + 9] + ssig1 w[i.val + 14] := by
  rw [scheduleWord, dif_neg (by simp), wstep]
  simp only [Nat.reduceSubDiff, Nat.add_sub_cancel]
  ac_rfl

/-- The padded block of "abc" (R78's example): all words but the first and the last are 0. -/
def abcMessage : Vector Word 16 := ((Vector.replicate 16 0).set 0 0x61626380).set 15 0x00000018

theorem eq_abcMessage {m : Vector Word 16} (h0 : m[0] = 0x61626380) (h15 : m[15] = 0x00000018)
    (hmid : ∀ j : Fin 16, j ≠ 0 → j ≠ 15 → m[j.val] = 0) : m = abcMessage := by
  refine Vector.ext fun j hj => ?_
  by_cases hj0 : j = 0
  · subst hj0; exact h0
  by_cases hj15 : j = 15
  · subst hj15; exact h15
  rw [hmid ⟨j, hj⟩ (by simpa [Fin.ext_iff] using hj0) (by simpa [Fin.ext_iff] using hj15)]
  simp [abcMessage, Ne.symm hj0, Ne.symm hj15]

theorem expand_abcMessage :
    (expand abcMessage)[16] = 0x61626380 ∧ (expand abcMessage)[17] = 0x000F0000 ∧
      (expand abcMessage)[18] = 0x7DA86405 ∧ (expand abcMessage)[19] = 0x600003C6 ∧
      (expand abcMessage)[63] = 0x12B1EDEB := by decide +kernel

/-! ### A round (R79) -/

/-- R10's formula is the library's rotation. -/
theorem rotr_eq_rotateRight (x : Word) {n : Nat} (hn : n < 32) : rotr x n = x.rotateRight n := by
  unfold rotr
  split_ifs with h0
  · subst h0; simp [BitVec.rotateRight_def]
  · rw [BitVec.rotateRight_def, Nat.mod_eq_of_lt hn]

theorem bsig0_eq_rotateRight (x : Word) :
    bsig0 x = x.rotateRight 2 ^^^ x.rotateRight 13 ^^^ x.rotateRight 22 := by
  simp only [bsig0, rotr_eq_rotateRight, Nat.reduceLT]

theorem bsig1_eq_rotateRight (x : Word) :
    bsig1 x = x.rotateRight 6 ^^^ x.rotateRight 11 ^^^ x.rotateRight 25 := by
  simp only [bsig1, rotr_eq_rotateRight, Nat.reduceLT]

/-- T1 as one sum modulo 2^32. -/
theorem t1p_add_eq_ofNat (e f g h k w : Word) :
    t1p e f g h + k + w =
      BitVec.ofNat 32 (h.toNat + (bsig1 e).toNat + (ch e f g).toNat + k.toNat + w.toNat) := by
  simp [t1p, BitVec.ofNat_add]

end Sys2Proof.Machine

open Sys2Proof Sys2Proof.Machine

/-- Settles O40: the recurrence gives each entry the value that the expander writes there, from earlier entries only, so
it has one solution; the example is the expander run on the block. -/
theorem expandIsTheScheduleRecurrence : Obligations.ExpandIsTheScheduleRecurrence := by
  refine ⟨fun m w => eq_expand_iff.trans ⟨fun hw => ⟨fun i => ?_, fun i => ?_⟩, fun ⟨hlow, hhigh⟩ i => ?_⟩,
    fun m h0 h15 hmid => eq_abcMessage h0 h15 hmid ▸ expand_abcMessage⟩
  · exact (hw ⟨i.val, by omega⟩).trans (scheduleWord_of_lt i.isLt)
  · rw [← scheduleWord_add_sixteen m w i]
    exact hw ⟨i.val + 16, by omega⟩
  · obtain ⟨i, hi⟩ := i
    by_cases hlt : i < 16
    · exact (hlow ⟨i, hlt⟩).trans (scheduleWord_of_lt (i := ⟨i, hi⟩) hlt).symm
    · obtain ⟨k, rfl⟩ := Nat.exists_eq_add_of_le' (Nat.le_of_not_lt hlt)
      exact (hhigh ⟨k, by omega⟩).trans (scheduleWord_add_sixteen m w ⟨k, by omega⟩).symm

/-- Settles O41: `roundStep` reads the old tuple only; its rotations are the library's and its T1 is one sum. -/
theorem roundIsASimultaneousUpdate : Obligations.RoundIsASimultaneousUpdate := by
  refine ⟨fun w v i => ?_, fun w hw => ?_⟩
  · simp only [roundStep, t1p_add_eq_ofNat, t2, ← bsig0_eq_rotateRight, ← bsig1_eq_rotateRight, ch, maj]
  · have hw' : w[(0 : Fin 64).val] = 0x61626380 := hw
    simp only [roundStep, hw']
    decide

/-- Settles O42: the sequence is the loop's own, `roundsUpTo`. -/
theorem compressIsSixtyFourRoundsAndFeedForward : Obligations.CompressIsSixtyFourRoundsAndFeedForward :=
  fun h m => ⟨roundsUpTo (expand m) (seed h), rfl, fun i => roundsUpTo_succ _ _ i.isLt,
    rfl, rfl, rfl, rfl, rfl, rfl, rfl, rfl⟩

end

section
/-! PROOFS. The block commands (40_block_commands.md R73 to R86): what an accepted NOP, INIT, COMPRESS or KRD leaves, the
engine cycles of a pending COMPRESS, and the rejection of every command while BUSY = 1. -/

namespace Sys2Proof.Machine

/-! ### Commands that write RES -/

/-- R89's template, from the command's encoding and its effect. -/
theorem writesResult_of_effect {i : Instr} {w : Word} {f : State → Word} (hwf : i.wf = true) (hw : encode i = w)
    (hf : ∀ s, effect i s = setRes (f s) s) : WritesResult i w f := by
  refine ⟨?_, hw, fun s hb => ?_⟩
  · rw [← hw, decode_encode, if_pos hwf]
  · rw [exec_of_idle i hb, hf]
    rfl

theorem givesRes_of_effect {i : Instr} {s : State} {v : Word} (hb : s.busy = false) (hv : (effect i s).res = v) :
    GivesRes i s v := ⟨_, exec_of_idle i hb, hv⟩

theorem tableIndex_ofNat (i : Fin 64) : tableIndex (BitVec.ofNat 6 i.val) = i :=
  Fin.ext (Nat.mod_eq_of_lt i.isLt)

/-- KRD's word (R85). -/
theorem encode_krd_ofNat (i : Fin 64) :
    encode (.krd (BitVec.ofNat 6 i.val)) = 0x00000003 ||| (BitVec.ofNat 32 i.val <<< 8) := by
  have himm : (BitVec.ofNat 6 i.val).setWidth 32 = BitVec.ofNat 32 i.val := by
    apply BitVec.eq_of_toNat_eq
    simp only [BitVec.toNat_setWidth, BitVec.toNat_ofNat]
    omega
  rw [encode, Instr.imm, himm, BitVec.or_comm]
  rfl

/-! ### Rejection while BUSY = 1 (R86, R120) -/

theorem exec_of_busy (i : Instr) {s : State} (hb : s.busy = true) : exec i s = .next (flagErrBusy s) := by
  rw [exec_eq_command, command_of_busy _ hb]

/-- A write to a register that BUSY gates is rejected whatever its value, for CMD before the word is decoded (R121). -/
theorem step_of_rejectedWrite {s : State} {r : Reg} {v : Word} {rest : List BusEvent} (hb : s.busy = true)
    (hg : r.gatedByBusy = true) (turn : HostTurn s (.write (regOffset r) 4 v) rest) :
    step s = .next (flagErrBusy (respond .done (takeEvent rest s))) := by
  simp [step_of_hostTurn turn, performed, target_regOffset, hb, hg]

/-! ### Engine cycles (R82) -/

theorem engineCycle_of_last {s : State} (hc : s.cyclesLeft ≤ 1) : engineCycle s = complete s := if_pos hc

theorem engineCycle_of_more {s : State} (hc : 1 < s.cyclesLeft) :
    engineCycle s = { s with seq := tick s.m s.h s.seq, cyclesLeft := s.cyclesLeft - 1,
                             hostTurns := Config.hostTurns s.freeCtr, freeCtr := s.freeCtr + 1 } :=
  if_neg (Nat.not_le.2 hc)

/-- No register shows the hidden state or the model's counters (R35). -/
theorem readReg_of_hidden (r : Reg) (s : State) (q : Sequencer) (cycles turns ctr : Nat) :
    readReg r { s with seq := q, cyclesLeft := cycles, hostTurns := turns, freeCtr := ctr } = readReg r s := by
  cases r <;> rfl

end Sys2Proof.Machine

open Sys2Proof Sys2Proof.Machine

/-- Settles O21: of the steps that `StepCase` lists, only the completion and reset end BUSY; every other step that meets
BUSY = 1 leaves it, H and M, and only the completion sets DONE. -/
theorem completionIsOneEngineStep : Obligations.CompletionIsOneEngineStep := by
  intro s t h
  cases stepCase_of_step h with
  | reset rest turn =>
    exact ⟨fun _ _ hr => absurd ⟨rest, turn⟩ hr, by simp, fun _ _ _ => ⟨rfl, rfl⟩, by simp⟩
  | completed turn =>
    exact ⟨fun _ _ _ => ⟨turn, rfl, rfl, rfl, rfl, rfl, rfl, rfl, rfl, rfl, rfl, rfl, rfl⟩, by simp,
      fun _ _ he => absurd turn he, by simp [turn.1]⟩
  | stored r v rest turn idle store => simp [idle, written_done_of_stores store]
  | reloaded rest turn idle | accepted rest turn idle | result i v rest turn idle | illegal v rest turn idle =>
    simp [idle]
  | answered | rejected | cleared | ticked | waited => simp_all

/-- Settles O38: with BUSY = 1 `exec` is the rejection, and CMD is a register whose writes BUSY gates, before decoding. -/
theorem busyRejectsEveryCommand : Obligations.BusyRejectsEveryCommand :=
  ⟨fun i _ hb => exec_of_busy i hb, fun _ _ _ hb turn => ⟨_, step_of_rejectedWrite hb rfl turn, rfl, rfl⟩⟩

/-- Settles O18: NOP's effect is the state itself. -/
theorem nopChangesNothing : Obligations.NopChangesNothing :=
  ⟨rfl, rfl, fun _ hb => exec_of_idle .nop hb,
    fun s hb hst => ⟨s, exec_of_idle .nop hb, hst, fun _ => rfl⟩⟩

/-- Settles O19: INIT's effect is `reloadIV`, which writes H only and finds IV there the second time and after reset. -/
theorem initReloadsTheChainingState : Obligations.InitReloadsTheChainingState :=
  ⟨rfl, rfl, fun s hb => ⟨reloadIV s, exec_of_idle .init hb, fun _ => rfl, rfl, exec_of_idle .init hb⟩,
    exec_of_idle .init rfl, fun _ hb _ => ⟨_, exec_of_idle .init hb, rfl, rfl⟩⟩

/-- Settles O20: COMPRESS's effect is `acceptCompress`, which starts the sequencer with no schedule word done. -/
theorem compressAcceptanceStartsTheSequencer : Obligations.CompressAcceptanceStartsTheSequencer :=
  ⟨rfl, rfl, fun s hb => ⟨acceptCompress s, exec_of_idle .compress hb, rfl, rfl, rfl, rfl,
    (engineInv_acceptCompress s).sequencer, rfl, rfl, rfl, rfl, rfl, rfl, rfl, rfl, rfl, rfl, rfl⟩⟩

/-- Settles O22: at the engine's turn a step is an engine cycle, the last of which is `complete`, and an earlier one
changes only what no register shows. -/
theorem engineCompletesAtItsLastCycle : Obligations.EngineCompletesAtItsLastCycle := by
  refine ⟨fun s turn hc => ⟨complete s, ?_, rfl, rfl, rfl, rfl⟩,
    fun s turn hc => ⟨_, (step_of_engineTurn turn).trans (congrArg _ (engineCycle_of_more hc)), turn.1, rfl, rfl, rfl,
      rfl, fun r => readReg_of_hidden r s _ _ _ _⟩,
    fun s hb => ⟨acceptCompress s, exec_of_idle .compress hb, rfl, Nat.le_add_left 1 _⟩⟩
  rw [step_of_engineTurn turn, engineCycle_of_last hc]

/-- Settles O23: KRD's effect writes K at the index that its IMM field holds, and each index has its own word. -/
theorem krdReadsTheRoundConstant : Obligations.KrdReadsTheRoundConstant := by
  refine ⟨fun i => writesResult_of_effect rfl (encode_krd_ofNat i) fun s => ?_, givesRes_of_effect rfl rfl,
    givesRes_of_effect rfl rfl, rfl, rfl, givesRes_of_effect rfl rfl⟩
  simp only [effect, tableIndex_ofNat]

end


section
/-! PROOFS. The functions of the rotator, adder and mixing commands (00_scope.md R10, R11): as formulas over the library's
operations and over the natural numbers, bit by bit, and as parts of the schedule and the round. -/

namespace Sys2Proof.Machine

/-! ### As formulas -/

/-- The zero-filling shift is a division (R91). -/
theorem shr_eq_ofNat_div (x : Word) (n : Nat) : shr x n = BitVec.ofNat 32 (x.toNat / 2 ^ n) := by
  apply BitVec.eq_of_toNat_eq
  have hlt : x.toNat / 2 ^ n < 2 ^ 32 := (Nat.div_le_self _ _).trans_lt x.isLt
  rw [shr, BitVec.toNat_ushiftRight, Nat.shiftRight_eq_div_pow, BitVec.toNat_ofNat, Nat.mod_eq_of_lt hlt]

theorem rotr_ones (n : Fin 32) : rotr 0xFFFFFFFF n.val = 0xFFFFFFFF := by
  revert n
  decide

theorem ssig0_eq_rotateRight (x : Word) : ssig0 x = x.rotateRight 7 ^^^ x.rotateRight 18 ^^^ (x >>> 3) := by
  simp only [ssig0, rotr_eq_rotateRight, Nat.reduceLT, shr]

theorem ssig1_eq_rotateRight (x : Word) : ssig1 x = x.rotateRight 17 ^^^ x.rotateRight 19 ^^^ (x >>> 10) := by
  simp only [ssig1, rotr_eq_rotateRight, Nat.reduceLT, shr]

theorem bsig1_zero : bsig1 0 = 0 := rfl

theorem ch_zero (f g : Word) : ch 0 f g = g := by
  rw [ch, BitVec.ofNat_eq_ofNat, BitVec.zero_and, BitVec.zero_xor, BitVec.not_zero, BitVec.allOnes_and]

theorem ch_ones (f g : Word) : ch 0xFFFFFFFF f g = f := by
  rw [ch, show (0xFFFFFFFF : Word) = BitVec.allOnes 32 from rfl, BitVec.not_allOnes, BitVec.zero_and,
    BitVec.xor_zero, BitVec.allOnes_and]

theorem wstep_eq_ofNat (w2 w7 w15 w16 : Word) :
    wstep w2 w7 w15 w16 =
      BitVec.ofNat 32 ((ssig1 w2).toNat + w7.toNat + (ssig0 w15).toNat + w16.toNat) := by
  simp [wstep, BitVec.ofNat_add]

theorem t1p_eq_ofNat (e f g h : Word) :
    t1p e f g h = BitVec.ofNat 32 (h.toNat + (bsig1 e).toNat + (ch e f g).toNat) := by
  simp [t1p, BitVec.ofNat_add]

theorem t2_eq_ofNat (a b c : Word) : t2 a b c = BitVec.ofNat 32 ((bsig0 a).toNat + (maj a b c).toNat) := by
  simp [t2, BitVec.ofNat_add]

/-! ### Bit by bit -/

theorem getLsbD_rotr (x : Word) {n j : Nat} (hn : n < 32) (hj : j < 32) :
    (rotr x n).getLsbD j = x.getLsbD ((j + n) % 32) := by
  rw [rotr_eq_rotateRight x hn, BitVec.getLsbD_rotateRight, Nat.mod_eq_of_lt hn]
  by_cases h : j < 32 - n
  · rw [decide_eq_true h, cond_true, Nat.mod_eq_of_lt (by omega), Nat.add_comm]
  · rw [decide_eq_false h, cond_false, show j - (32 - n) = (j + n) % 32 by omega, decide_eq_true hj, Bool.true_and]

theorem getLsbD_shr (x : Word) (n j : Nat) :
    (shr x n).getLsbD j = (decide (j + n < 32) && x.getLsbD (j + n)) := by
  rw [shr, BitVec.getLsbD_ushiftRight, Nat.add_comm]
  by_cases h : j + n < 32
  · rw [decide_eq_true h, Bool.true_and]
  · rw [decide_eq_false h, Bool.false_and, BitVec.getLsbD_of_ge x _ (Nat.le_of_not_lt h)]

theorem getLsbD_ch (e f g : Word) {j : Nat} (hj : j < 32) :
    (ch e f g).getLsbD j = if e.getLsbD j then f.getLsbD j else g.getLsbD j := by
  simp only [ch, BitVec.getLsbD_xor, BitVec.getLsbD_and, BitVec.getLsbD_not, hj, decide_true, Bool.true_and]
  cases e.getLsbD j <;> simp

/-- Of the three products an odd number is 1 exactly when two or three of the bits are. -/
theorem getLsbD_maj (a b c : Word) (j : Nat) :
    (maj a b c).getLsbD j = true ↔ 2 ≤ (a.getLsbD j).toNat + (b.getLsbD j).toNat + (c.getLsbD j).toNat := by
  simp only [maj, BitVec.getLsbD_xor, BitVec.getLsbD_and]
  cases a.getLsbD j <;> cases b.getLsbD j <;> cases c.getLsbD j <;> decide

/-! ### As parts of the schedule and the round -/

/-- The order in which R78 adds the same four words. -/
theorem wstep_eq_add (w2 w7 w15 w16 : Word) : wstep w2 w7 w15 w16 = w16 + ssig0 w15 + w7 + ssig1 w2 := by
  rw [wstep]
  ac_rfl

/-- One step of the expander, on a finished schedule (R99). -/
theorem wstep_expand (m : Vector Word 16) (i : Fin 48) :
    wstep (expand m)[i.val + 14] (expand m)[i.val + 9] (expand m)[i.val + 1] (expand m)[i.val] =
      (expand m)[i.val + 16] := by
  have hentry := expand_getElem m ⟨i.val + 16, by omega⟩
  rw [scheduleWord_add_sixteen, ← wstep_eq_add] at hentry
  exact hentry.symm

theorem roundStep_e (w : Vector Word 64) (v : Vars) (i : Fin 64) :
    (roundStep w v i).e = v.d + (t1p v.e v.f v.g v.h + K[i.val] + w[i.val]) := rfl

/-- The round's e' without d, K[i] and W[i] is the partial first temporary (R100). -/
theorem roundStep_e_sub (w : Vector Word 64) (v : Vars) (i : Fin 64) :
    (roundStep w v i).e - v.d - K[i.val] - w[i.val] = t1p v.e v.f v.g v.h := by
  rw [roundStep_e, add_sub_cancel_left, add_right_comm, add_sub_cancel_right, add_sub_cancel_right]

end Sys2Proof.Machine
end

section
/-! PROOFS. The rotator, adder and mixing commands (41_mixing_functions.md R89 to R101): the words of ROTR and SHR, the
effect of a primitive command, and what each of them writes to RES. -/

namespace Sys2Proof

/-! ### Command words -/

theorem decode_encode_of_wf {i : Instr} (h : i.wf = true) : decode (encode i) = .ok i := by
  rw [decode_encode, if_pos h]

/-- No word decodes to an instruction with an operand out of range (R65 (d)). -/
theorem decode_ne_of_not_wf {i : Instr} (h : i.wf = false) (v : Word) : decode v ≠ .ok i := fun hd => by
  obtain ⟨-, hwf⟩ := encode_of_decode hd
  simp [h] at hwf

theorem shiftInRange_of_lt {imm : BitVec 6} (h : imm.toNat < 32) : shiftInRange imm = true := decide_eq_true h

theorem shiftInRange_of_le {imm : BitVec 6} (h : 32 ≤ imm.toNat) : shiftInRange imm = false :=
  decide_eq_false (Nat.not_lt.2 h)

theorem toNat_shiftField (n : Fin 32) : (BitVec.ofNat 6 n.val).toNat = n.val := Nat.mod_eq_of_lt (by omega)

theorem shiftInRange_shiftField (n : Fin 32) : shiftInRange (BitVec.ofNat 6 n.val) = true :=
  shiftInRange_of_lt (by rw [toNat_shiftField]; exact n.isLt)

/-- The word of a command with shift amount n is OPCODE OR (n << 8) (R90, R91). -/
theorem encode_of_shiftField {i : Instr} {n : Fin 32} (h : i.imm = BitVec.ofNat 6 n.val) :
    encode i = i.opcode.setWidth 32 ||| (BitVec.ofNat 32 n.val <<< 8) := by
  rw [encode, h, BitVec.setWidth_ofNat_of_le_of_lt (by decide) (by omega), BitVec.or_comm]

end Sys2Proof

namespace Sys2Proof.Machine

/-! ### The effect of a primitive command (R89) -/

theorem effect_of_exec {i : Instr} {s t : State} (hb : s.busy = false) (h : exec i s = .next t) : t = effect i s := by
  rw [exec_of_idle i hb] at h
  cases h
  rfl

theorem effect_rotr {imm : BitVec 6} (h : shiftInRange imm = true) (s : State) :
    effect (.rotr imm) s = setRes (rotr s.opa imm.toNat) s := if_pos h

theorem effect_shr {imm : BitVec 6} (h : shiftInRange imm = true) (s : State) :
    effect (.shr imm) s = setRes (shr s.opa imm.toNat) s := if_pos h

/-- What a primitive command computes from OPA to OPD. -/
def primitiveResult (i : Instr) (a b c d : Word) : Word := (effect i (withOperands a b c d)).res

/-- A primitive command writes a function of OPA to OPD to RES, and nothing else. -/
theorem effect_of_primitive {i : Instr} (hfam : i.family ≠ .block) (hwf : i.wf = true) (s : State) :
    effect i s = setRes (primitiveResult i s.opa s.opb s.opc s.opd) s := by
  unfold primitiveResult
  cases i
  case nop | init | compress | krd imm => exact absurd rfl hfam
  case rotr imm => rw [effect_rotr hwf, effect_rotr hwf]; rfl
  case shr imm => rw [effect_shr hwf, effect_shr hwf]; rfl
  all_goals rfl

theorem readReg_setRes {r : Reg} (hr : r ≠ .res) (v : Word) (s : State) : readReg r (setRes v s) = readReg r s := by
  cases r
  case res => exact absurd rfl hr
  all_goals rfl

/-! ### Corner cases whatever OPD is (R97, R98, R101) -/

section
variable {a b c v : Word}

theorem givesRes_ch (hv : ch a b c = v) (d : Word) : GivesRes .ch (withOperands a b c d) v :=
  givesRes_of_effect rfl hv

theorem givesRes_maj (hv : maj a b c = v) (d : Word) : GivesRes .maj (withOperands a b c d) v :=
  givesRes_of_effect rfl hv

theorem givesRes_t2 (hv : t2 a b c = v) (d : Word) : GivesRes .t2 (withOperands a b c d) v :=
  givesRes_of_effect rfl hv

end

end Sys2Proof.Machine

open Sys2Proof Sys2Proof.Machine

/-- Settles O37: the step performs the CMD write, whose effect is `primitiveResult` written to RES; that no other step
changes RES is O46. -/
theorem primitiveCommandsWriteOnlyRes : Obligations.PrimitiveCommandsWriteOnlyRes := by
  refine ⟨fun i hfam hwf => ⟨primitiveResult i, fun s rest hb turn => ?_⟩, fun s t h hne => ?_⟩
  · refine ⟨_, (step_of_cmdTurn (decode_encode_of_wf hwf) turn).trans (exec_of_idle i hb), ?_⟩
    rw [effect_of_primitive hfam hwf]
    exact ⟨rfl, fun r hr => (readReg_setRes hr _ _).trans (SameEngine.readReg_eq rfl r), rfl, rfl, rfl⟩
  · obtain ⟨hwriters, -⟩ := resIsWrittenByResultCommandsOnly
    obtain ⟨hreset, -⟩ | ⟨i, rest, turn, hwf, hwrites, hb⟩ := hwriters s t h hne
    · exact .inl hreset
    · exact .inr ⟨encode i, i, rest, turn, hb, decode_encode_of_wf hwf, hwrites⟩

/-- Settles O36: RES holds the command's function of the operands, whose bits the `getLsbD` lemmas give. -/
theorem rotateShiftChooseMajorityBitByBit : Obligations.RotateShiftChooseMajorityBitByBit := by
  refine ⟨fun s t n j hb hn hj h => ?_, fun s t n j hb hn h => ?_, fun s t j hb hj h => ?_, fun s t j hb _ h => ?_⟩
  · rw [effect_of_exec hb h, effect_rotr (shiftInRange_of_lt hn)]
    exact getLsbD_rotr s.opa hn hj
  · rw [effect_of_exec hb h, effect_shr (shiftInRange_of_lt hn)]
    exact getLsbD_shr s.opa n.toNat j
  · rw [effect_of_exec hb h]
    exact getLsbD_ch s.opa s.opb s.opc hj
  · rw [effect_of_exec hb h]
    exact getLsbD_maj s.opa s.opb s.opc j

/-- Settles O24: ROTR's effect writes R10's rotation, which is the library's. -/
theorem rotrRotatesOpaRight : Obligations.RotrRotatesOpaRight := by
  refine ⟨fun n => writesResult_of_effect (shiftInRange_shiftField n) (encode_of_shiftField rfl) fun s => ?_,
    fun n hn => decode_ne_of_not_wf (shiftInRange_of_le hn), fun s hb => givesRes_of_effect hb rfl,
    givesRes_of_effect rfl rfl, givesRes_of_effect rfl rfl, fun n => givesRes_of_effect rfl ?_, rfl,
    givesRes_of_effect rfl rfl⟩
  · rw [effect_rotr (shiftInRange_shiftField n), toNat_shiftField, rotr_eq_rotateRight _ n.isLt]
  · rw [effect_rotr (shiftInRange_shiftField n), toNat_shiftField]
    exact rotr_ones n

/-- Settles O25: SHR's effect writes the zero-filling shift, which is the division by 2^n. -/
theorem shrShiftsOpaRightWithZeroFill : Obligations.ShrShiftsOpaRightWithZeroFill := by
  refine ⟨fun n => writesResult_of_effect (shiftInRange_shiftField n) (encode_of_shiftField rfl) fun s => ?_,
    fun n hn => decode_ne_of_not_wf (shiftInRange_of_le hn), fun s hb => givesRes_of_effect hb rfl,
    givesRes_of_effect rfl rfl, givesRes_of_effect rfl rfl, givesRes_of_effect rfl rfl, rfl,
    givesRes_of_effect rfl rfl⟩
  rw [effect_shr (shiftInRange_shiftField n), toNat_shiftField, shr_eq_ofNat_div]

/-- Settles O26: the word addition that ADD's effect writes is the sum modulo 2^32. -/
theorem addIsModuloTwoToThe32 : Obligations.AddIsModuloTwoToThe32 := by
  refine ⟨writesResult_of_effect rfl rfl fun s => ?_, givesRes_of_effect rfl rfl, givesRes_of_effect rfl rfl,
    givesRes_of_effect rfl rfl, givesRes_of_effect rfl rfl⟩
  rw [← BitVec.toNat_add, BitVec.ofNat_toNat, BitVec.setWidth_eq]
  rfl

/-- Settles O27: SSIG0's effect writes σ0, here over the library's rotation. -/
theorem ssig0WritesSmallSigmaZero : Obligations.Ssig0WritesSmallSigmaZero :=
  ⟨writesResult_of_effect rfl rfl fun s => congrArg (setRes · s) (ssig0_eq_rotateRight s.opa),
    givesRes_of_effect rfl rfl, givesRes_of_effect rfl rfl, givesRes_of_effect rfl rfl, givesRes_of_effect rfl rfl,
    givesRes_of_effect rfl rfl⟩

/-- Settles O28: SSIG1's effect writes σ1, here over the library's rotation. -/
theorem ssig1WritesSmallSigmaOne : Obligations.Ssig1WritesSmallSigmaOne :=
  ⟨writesResult_of_effect rfl rfl fun s => congrArg (setRes · s) (ssig1_eq_rotateRight s.opa),
    givesRes_of_effect rfl rfl, givesRes_of_effect rfl rfl, givesRes_of_effect rfl rfl, givesRes_of_effect rfl rfl,
    givesRes_of_effect rfl rfl⟩

/-- Settles O29: BSIG0's effect writes Σ0, here over the library's rotation. -/
theorem bsig0WritesBigSigmaZero : Obligations.Bsig0WritesBigSigmaZero :=
  ⟨writesResult_of_effect rfl rfl fun s => congrArg (setRes · s) (bsig0_eq_rotateRight s.opa),
    givesRes_of_effect rfl rfl, givesRes_of_effect rfl rfl, givesRes_of_effect rfl rfl, givesRes_of_effect rfl rfl,
    givesRes_of_effect rfl rfl⟩

/-- Settles O30: BSIG1's effect writes Σ1, here over the library's rotation. -/
theorem bsig1WritesBigSigmaOne : Obligations.Bsig1WritesBigSigmaOne :=
  ⟨writesResult_of_effect rfl rfl fun s => congrArg (setRes · s) (bsig1_eq_rotateRight s.opa),
    givesRes_of_effect rfl rfl, givesRes_of_effect rfl rfl, givesRes_of_effect rfl rfl, givesRes_of_effect rfl rfl,
    givesRes_of_effect rfl rfl⟩

/-- Settles O31: CH's effect writes Ch, where NOT is the XOR with all ones. -/
theorem chChoosesByOpa : Obligations.ChChoosesByOpa := by
  refine ⟨writesResult_of_effect rfl rfl fun s => ?_, fun s hb ha => givesRes_of_effect hb ?_,
    fun s hb ha => givesRes_of_effect hb ?_, givesRes_ch rfl, givesRes_ch rfl⟩
  · rw [show s.opa ^^^ 0xFFFFFFFF = ~~~s.opa from BitVec.xor_allOnes]
    rfl
  · rw [effect, ha, ch_zero, setRes_res]
  · rw [effect, ha, ch_ones, setRes_res]

/-- Settles O32: MAJ's effect writes Maj, whose definition is the formula. -/
theorem majTakesTheMajority : Obligations.MajTakesTheMajority :=
  ⟨writesResult_of_effect rfl rfl fun _ => rfl, givesRes_maj rfl, givesRes_maj rfl, givesRes_maj rfl,
    givesRes_maj rfl⟩

/-- Settles O33: WSTEP's effect writes the expander's own step, of which every entry from the 16th on is the result. -/
theorem wstepIsOneStepOfTheExpander : Obligations.WstepIsOneStepOfTheExpander :=
  ⟨writesResult_of_effect rfl rfl fun s => congrArg (setRes · s) (wstep_eq_ofNat s.opa s.opb s.opc s.opd),
    fun m i => givesRes_of_effect rfl (wstep_expand m i), givesRes_of_effect rfl rfl, givesRes_of_effect rfl rfl,
    givesRes_of_effect rfl rfl⟩

/-- Settles O34: T1P's effect writes the round's own partial temporary. -/
theorem t1pIsThePartialFirstTemporary : Obligations.T1pIsThePartialFirstTemporary := by
  refine ⟨writesResult_of_effect rfl rfl fun s => congrArg (setRes · s) (t1p_eq_ofNat s.opa s.opb s.opc s.opd),
    fun w v i => givesRes_of_effect rfl (roundStep_e_sub w v i).symm, givesRes_of_effect rfl rfl,
    fun s hb ha => givesRes_of_effect hb ?_, givesRes_of_effect rfl rfl⟩
  rw [effect, ha, t1p, bsig1_zero, ch_zero, add_zero, setRes_res]

/-- Settles O35: T2's effect writes the round's own second temporary. -/
theorem t2IsTheSecondTemporary : Obligations.T2IsTheSecondTemporary :=
  ⟨writesResult_of_effect rfl rfl fun s => congrArg (setRes · s) (t2_eq_ofNat s.opa s.opb s.opc),
    givesRes_t2 rfl, givesRes_t2 rfl, givesRes_t2 rfl⟩

end

section
/-! PROOFS. Text and digests as characters (45_host_framing.md R103 to R105, R112): encoding stops at the first bad
index, and a digest's characters are the nibbles of its words. -/

namespace Sys2Proof.Machine

/-! ### Text that fails to encode (R105) -/

/-- u stands unpaired before rest. -/
def Unpaired (u : CodeUnit) (rest : List CodeUnit) : Prop :=
  (isHighSurrogate u = true ∧ ∀ v ∈ rest.head?, isLowSurrogate v = false) ∨ isLowSurrogate u = true

theorem isHighSurrogate_of_low {u : CodeUnit} (h : isLowSurrogate u = true) : isHighSurrogate u = false := by
  simp only [isLowSurrogate, isHighSurrogate, Bool.and_eq_true, decide_eq_true_eq, Bool.and_eq_false_iff,
    decide_eq_false_iff_not] at h ⊢
  omega

theorem utf8UnitsFrom_of_low {u : CodeUnit} (hl : isLowSurrogate u = true) (k : Nat) (rest : List CodeUnit) :
    utf8UnitsFrom k (u :: rest) = .error (.encodingError k) := by
  rw [utf8UnitsFrom.eq_def]
  simp only [isHighSurrogate_of_low hl, hl, if_true, Bool.false_eq_true, if_false]

/-- A unit that is no surrogate is a scalar of its own (R104). -/
theorem utf8UnitsFrom_of_scalar {u : CodeUnit} (hh : isHighSurrogate u = false) (hl : isLowSurrogate u = false)
    (k : Nat) (rest : List CodeUnit) :
    utf8UnitsFrom k (u :: rest) = (utf8UnitsFrom (k + 1) rest).map (utf8Scalar (u.setWidth 21) ++ ·) := by
  rw [utf8UnitsFrom.eq_def]
  simp only [hh, hl, Bool.false_eq_true, if_false]

theorem utf8UnitsFrom_of_unpaired {u : CodeUnit} {rest : List CodeUnit} (h : Unpaired u rest) (k : Nat) :
    utf8UnitsFrom k (u :: rest) = .error (.encodingError k) := by
  obtain ⟨hh, hrest⟩ | hl := h
  · cases rest with
    | nil => simp [utf8UnitsFrom, hh]
    | cons v rest => simp [utf8UnitsFrom, hh, hrest v rfl]
  · exact utf8UnitsFrom_of_low hl k rest

/-- A mapped result is a success only if the result is. -/
theorem exists_ok_of_map_eq_ok {ε α β : Type} {f : α → β} {x : Except ε α} {b : β} (h : x.map f = .ok b) :
    ∃ a, x = .ok a := by
  cases x with
  | error e => cases h
  | ok a => exact ⟨a, rfl⟩

/-- Before units that fail, units that encode do not hide the failure. -/
theorem utf8UnitsFrom_append {k : Nat} {pre suf : List CodeUnit} {b : List Byte} {e : DriverError}
    (hpre : utf8UnitsFrom k pre = .ok b) (hsuf : utf8UnitsFrom (k + pre.length) suf = .error e) :
    utf8UnitsFrom k (pre ++ suf) = .error e := by
  induction k, pre using utf8UnitsFrom.induct generalizing b with
  | case1 k => exact hsuf
  | case2 k u hu => simp [utf8UnitsFrom, hu] at hpre
  | case3 k u hu v rest hv ih =>
    simp only [utf8UnitsFrom, hu, hv, if_true] at hpre
    obtain ⟨a, ha⟩ := exists_ok_of_map_eq_ok hpre
    have hlen : k + 2 + rest.length = k + (u :: v :: rest).length := by simp only [List.length_cons]; omega
    have hrest := ih ha (by rwa [hlen])
    simp only [List.cons_append, utf8UnitsFrom, hu, hv, if_true, hrest]
    rfl
  | case4 k u hu v rest hv => simp [utf8UnitsFrom, hu, hv] at hpre
  | case5 k u rest hu hl => simp [utf8UnitsFrom_of_low hl] at hpre
  | case6 k u rest hu hl ih =>
    rw [Bool.not_eq_true] at hu hl
    rw [utf8UnitsFrom_of_scalar hu hl] at hpre
    obtain ⟨a, ha⟩ := exists_ok_of_map_eq_ok hpre
    have hlen : k + 1 + rest.length = k + (u :: rest).length := by simp only [List.length_cons]; omega
    rw [List.cons_append, utf8UnitsFrom_of_scalar hu hl, ih ha (by rwa [hlen])]
    rfl

theorem utf8ScalarsFrom_append {k : Nat} {pre suf : List Nat} {b : List Byte} {e : DriverError}
    (hpre : utf8ScalarsFrom k pre = .ok b) (hsuf : utf8ScalarsFrom (k + pre.length) suf = .error e) :
    utf8ScalarsFrom k (pre ++ suf) = .error e := by
  induction pre generalizing k b with
  | nil => exact hsuf
  | cons cp pre ih =>
    simp only [utf8ScalarsFrom] at hpre
    split_ifs at hpre with hcp
    obtain ⟨a, ha⟩ := exists_ok_of_map_eq_ok hpre
    have hrest := ih ha (by rwa [Nat.add_assoc, Nat.add_comm 1])
    simp only [List.cons_append, utf8ScalarsFrom, hcp, if_true, hrest]
    rfl

theorem isScalar_eq_false {cp : Nat} (h : (0xD800 ≤ cp ∧ cp ≤ 0xDFFF) ∨ 0x10FFFF < cp) : isScalar cp = false := by
  obtain ⟨h1, h2⟩ | h := h
  · simp [isScalar, h1, h2]
  · simp [isScalar, Nat.not_le.2 h]

theorem utf8ScalarsFrom_of_not_scalar {cp : Nat} (h : isScalar cp = false) (k : Nat) (rest : List Nat) :
    utf8ScalarsFrom k (cp :: rest) = .error (.encodingError k) := by
  simp [utf8ScalarsFrom, h]

theorem utf8Units_append {pre rest : List CodeUnit} {b : List Byte} {u : CodeUnit} (hpre : utf8Units pre = .ok b)
    (hu : Unpaired u rest) : utf8Units (pre ++ u :: rest) = .error (.encodingError pre.length) :=
  utf8UnitsFrom_append hpre (by rw [Nat.zero_add, utf8UnitsFrom_of_unpaired hu])

theorem utf8Scalars_append {pre : List Nat} {b : List Byte} {cp : Nat} (hpre : utf8Scalars pre = .ok b)
    (hcp : isScalar cp = false) (rest : List Nat) :
    utf8Scalars (pre ++ cp :: rest) = .error (.encodingError pre.length) :=
  utf8ScalarsFrom_append hpre (by rw [Nat.zero_add, utf8ScalarsFrom_of_not_scalar hcp])

/-- Input that fails to encode fails the digest before a transaction (R105). -/
theorem digest_of_toBytes_error {input : Input} {e : DriverError} (h : input.toBytes = .error e) (s : SharedEngine) :
    digest input s = .next (.error e, s) := by
  simp only [digest, h]

/-! ### Hexadecimal characters (R112) -/

/-- R112's alphabet. -/
def hexChars : List Char := ['0', '1', '2', '3', '4', '5', '6', '7', '8', '9', 'a', 'b', 'c', 'd', 'e', 'f']

theorem hexChars_getElem?_toNat (n : BitVec 4) : hexChars[n.toNat]? = some (hexDigit n) := by revert n; decide

/-- Character k of a word is its nibble 7 − k. -/
theorem hex8_getElem? (w : Word) (k : Fin 8) : (hex8 w)[k.val]? = hexChars[w.toNat / 2 ^ (28 - 4 * k.val) % 16]? := by
  have hnibble (lsb : Nat) : hexChars[w.toNat / 2 ^ lsb % 16]? = some (hexDigit (w.extractLsb' lsb 4)) := by
    rw [← hexChars_getElem?_toNat, BitVec.extractLsb'_toNat, Nat.shiftRight_eq_div_pow]
  rw [hnibble]
  fin_cases k <;> rfl

/-- The characters of words one after the other, eight for each. -/
theorem flatMap_hex8_getElem? (ws : List Word) (i : Nat) (k : Fin 8) :
    (ws.flatMap hex8)[8 * i + k.val]? = ws[i]?.bind fun w => (hex8 w)[k.val]? := by
  induction ws generalizing i with
  | nil => rfl
  | cons w ws ih =>
    have hl : (hex8 w).length = 8 := rfl
    rw [List.flatMap_cons]
    cases i with
    | zero => simp [List.getElem?_append_left, hl]
    | succ i =>
      rw [List.getElem?_append_right (by omega), hl, show 8 * (i + 1) + k.val - 8 = 8 * i + k.val by omega, ih]
      rfl

theorem serialize_length (h : Vector Word 8) : (serialize h).length = 64 := by
  have hl : (fun w => (hex8 w).length) = fun _ : Word => 8 := rfl
  rw [serialize, List.length_flatMap, hl, List.map_const', List.sum_replicate, Vector.length_toList]
  rfl

theorem serialize_getElem? (h : Vector Word 8) (i k : Fin 8) :
    (serialize h)[8 * i.val + k.val]? = hexChars[h[i.val].toNat / 2 ^ (28 - 4 * k.val) % 16]? := by
  rw [serialize, flatMap_hex8_getElem?, List.getElem?_eq_getElem (by simp), Vector.getElem_toList, Option.bind_some,
    hex8_getElem?]

/-- Every character of a digest is one of its nibbles, so it is in the alphabet. -/
theorem mem_hexChars_of_mem_serialize {h : Vector Word 8} {c : Char} (hc : c ∈ serialize h) : c ∈ hexChars := by
  obtain ⟨n, hn⟩ := List.mem_iff_getElem?.1 hc
  have hlt : n < 64 := by rw [← serialize_length h]; exact (List.getElem?_eq_some_iff.1 hn).1
  rw [show n = 8 * (⟨n / 8, by omega⟩ : Fin 8).val + (⟨n % 8, by omega⟩ : Fin 8).val by simp only; omega,
    serialize_getElem?] at hn
  exact List.mem_of_getElem? hn

end Sys2Proof.Machine

open Sys2Proof Sys2Proof.Machine

/-- Settles O57: what stands before the bad index encodes, so encoding reaches it and fails there, and the digest fails
with it before the driver issues anything. -/
theorem unpairedSurrogateFailsTheDigest : Obligations.UnpairedSurrogateFailsTheDigest := by
  refine ⟨fun pre b u rest hpre hu => digest_of_toBytes_error (utf8Units_append hpre hu),
    fun pre b cp rest hpre hcp => digest_of_toBytes_error (utf8Scalars_append hpre (isScalar_eq_false hcp) rest)⟩

/-- Settles O58: eight characters for each word in order, each the character of a nibble. -/
theorem serializedDigestForm : Obligations.SerializedDigestForm :=
  fun h => ⟨serialize_length h, serialize_getElem? h, fun _ => mem_hexChars_of_mem_serialize⟩

end

section
/-! PROOFS. Padding and packing (45_host_framing.md R106 to R110): the padded buffer is a whole number of blocks that
ends with the bit length, and its blocks are the big-endian words of its bytes. -/

namespace Sys2Proof.Machine

/-! ### The padded buffer (R106) -/

/-- P without its last eight bytes: the input, 0x80 and the zeros. -/
def paddedFront (b : List Byte) : List Byte :=
  b ++ 0x80 :: List.replicate (64 * blockCount b.length - b.length - 9) 0

theorem padded_eq_front_append (b : List Byte) :
    padded b = paddedFront b ++ be64 (BitVec.ofNat 64 (8 * b.length)) := rfl

/-- N is the least number of blocks that hold the input, 0x80 and the length (R106). -/
theorem le_mul_iff_blockCount_le (l n : Nat) : l + 9 ≤ 64 * n ↔ blockCount l ≤ n := by
  unfold blockCount
  omega

theorem le_mul_blockCount (l : Nat) : l + 9 ≤ 64 * blockCount l := (le_mul_iff_blockCount_le l _).2 le_rfl

theorem paddedFront_length (b : List Byte) : (paddedFront b).length + 8 = 64 * blockCount b.length := by
  have := le_mul_blockCount b.length
  simp only [paddedFront, List.length_append, List.length_cons, List.length_replicate]
  omega

theorem padded_length (b : List Byte) : (padded b).length = 64 * blockCount b.length := by
  rw [padded_eq_front_append, List.length_append]
  exact paddedFront_length b

theorem padded_eq_append (b : List Byte) :
    padded b = b ++ (0x80 :: List.replicate (64 * blockCount b.length - b.length - 9) 0 ++
      be64 (BitVec.ofNat 64 (8 * b.length))) := List.append_assoc ..

theorem padded_take (b : List Byte) : (padded b).take b.length = b := by
  rw [padded_eq_append, List.take_left]

theorem padded_getElem?_marker (b : List Byte) : (padded b)[b.length]? = some 0x80 := by
  rw [padded_eq_append, List.getElem?_append_right le_rfl, Nat.sub_self]
  rfl

theorem padded_getElem?_zeros (b : List Byte) {k : Nat} (hk : b.length + 1 ≤ k) (hk' : k + 9 ≤ (padded b).length) :
    (padded b)[k]? = some 0x00 := by
  have hfront := paddedFront_length b
  rw [padded_length] at hk'
  obtain ⟨j, rfl⟩ : ∃ j, k = b.length + (j + 1) := ⟨k - b.length - 1, by omega⟩
  rw [padded_eq_front_append, List.getElem?_append_left (by omega), paddedFront,
    List.getElem?_append_right (by omega), Nat.add_sub_cancel_left, List.getElem?_cons_succ, List.getElem?_replicate,
    if_pos (by omega)]

theorem padded_drop (b : List Byte) :
    (padded b).drop ((padded b).length - 8) = be64 (BitVec.ofNat 64 (8 * b.length)) := by
  have hfront := paddedFront_length b
  rw [padded_length, padded_eq_front_append, List.drop_left' (by omega)]

/-! ### Words (R110) -/

theorem packWord_eq_append (b0 b1 b2 b3 : Byte) : packWord b0 b1 b2 b3 = b0 ++ b1 ++ b2 ++ b3 := by
  apply BitVec.eq_of_getLsbD_eq
  intro i hi
  simp only [packWord, BitVec.getLsbD_or, BitVec.getLsbD_shiftLeft, BitVec.getLsbD_setWidth, BitVec.getLsbD_append]
  grind

theorem toNat_append_byte {n : Nat} (x : BitVec n) (y : Byte) : (x ++ y).toNat = 2 ^ 8 * x.toNat + y.toNat := by
  rw [BitVec.toNat_append, ← Nat.shiftLeft_add_eq_or_of_lt y.isLt, Nat.shiftLeft_eq, Nat.mul_comm]

theorem toNat_packWord (b0 b1 b2 b3 : Byte) :
    (packWord b0 b1 b2 b3).toNat =
      2 ^ 24 * b0.toNat + 2 ^ 16 * b1.toNat + 2 ^ 8 * b2.toNat + b3.toNat := by
  rw [packWord_eq_append, toNat_append_byte, toNat_append_byte, toNat_append_byte]
  omega

/-- The big-endian number of bytes i to i + 3 of a buffer. -/
def wordAt (bytes : List Byte) (i : Nat) : Nat :=
  2 ^ 24 * (byteAt bytes i).toNat + 2 ^ 16 * (byteAt bytes (i + 1)).toNat + 2 ^ 8 * (byteAt bytes (i + 2)).toNat +
    (byteAt bytes (i + 3)).toNat

theorem toNat_packBlock_getElem (bytes : List Byte) (t : Fin 16) :
    ((packBlock bytes)[t.val]).toNat = wordAt bytes (4 * t.val) := by
  rw [packBlock, Vector.getElem_ofFn, toNat_packWord]
  rfl

/-- The two words of R107's eight bytes. -/
theorem wordAt_be64 (v : BitVec 64) :
    wordAt (be64 v) 0 = v.toNat / 2 ^ 32 ∧ wordAt (be64 v) 4 = v.toNat % 2 ^ 32 := by
  have hv := v.isLt
  have hbyte (lsb : Nat) : (v.extractLsb' lsb 8).toNat = v.toNat / 2 ^ lsb % 2 ^ 8 := by
    rw [BitVec.extractLsb'_toNat, Nat.shiftRight_eq_div_pow]
  simp only [wordAt, byteAt, be64, List.getD_cons_zero, List.getD_cons_succ, hbyte, Nat.zero_add, Nat.reduceAdd]
  omega

theorem byteAt_append_right (l l' : List Byte) (i : Nat) : byteAt (l ++ l') (l.length + i) = byteAt l' i := by
  rw [byteAt, List.getD_append_right _ _ _ _ (Nat.le_add_right ..), Nat.add_sub_cancel_left, byteAt]

theorem wordAt_append_right (l l' : List Byte) (i : Nat) : wordAt (l ++ l') (l.length + i) = wordAt l' i := by
  simp only [wordAt, Nat.add_assoc, byteAt_append_right]

/-! ### Blocks (R109) -/

/-- Block j of a buffer: bytes 64j to 64j + 63. -/
def blockBytes (bytes : List Byte) (j : Nat) : List Byte := (bytes.drop (64 * j)).take 64

theorem byteAt_blockBytes (bytes : List Byte) (j : Nat) {i : Nat} (hi : i < 64) :
    byteAt (blockBytes bytes j) i = byteAt bytes (64 * j + i) := by
  simp only [byteAt, blockBytes, List.getD_eq_getElem?_getD, List.getElem?_take, if_pos hi, List.getElem?_drop]

theorem wordAt_blockBytes (bytes : List Byte) (j : Nat) {i : Nat} (hi : i + 3 < 64) :
    wordAt (blockBytes bytes j) i = wordAt bytes (64 * j + i) := by
  simp only [wordAt, byteAt_blockBytes bytes j (show i < 64 by omega),
    byteAt_blockBytes bytes j (show i + 1 < 64 by omega), byteAt_blockBytes bytes j (show i + 2 < 64 by omega),
    byteAt_blockBytes bytes j hi, Nat.add_assoc]

theorem packBlocks_eq_map (bytes : List Byte) (n : Nat) :
    packBlocks bytes n = (List.range n).map fun j => packBlock (blockBytes bytes j) := by
  induction n generalizing bytes with
  | zero => rfl
  | succ n ih =>
    rw [packBlocks, ih, List.range_succ_eq_map, List.map_cons, List.map_map]
    simp only [Function.comp_def, blockBytes, List.drop_drop, Nat.mul_zero, List.drop_zero, Nat.succ_eq_add_one,
      Nat.mul_add, Nat.mul_one, Nat.add_comm]

theorem messageBlocks_length (b : List Byte) : (messageBlocks b).length = blockCount b.length := by
  rw [messageBlocks, packBlocks_eq_map, List.length_map, List.length_range]

/-- Word t of block j (R109, R110). -/
theorem toNat_messageBlocks_getElem (b : List Byte) (j : Nat) (t : Fin 16) (hj : j < (messageBlocks b).length) :
    ((messageBlocks b)[j])[t.val].toNat = wordAt (padded b) (64 * j + 4 * t.val) := by
  have hblock : (messageBlocks b)[j] = packBlock (blockBytes (padded b) j) := by
    simp only [messageBlocks, packBlocks_eq_map, List.getElem_map, List.getElem_range]
  rw [hblock, toNat_packBlock_getElem, wordAt_blockBytes _ _ (by omega)]

/-- Words 14 and 15 of the last block are R107's length field. -/
theorem wordAt_padded_lengthField (b : List Byte) (i : Nat) :
    wordAt (padded b) (64 * (blockCount b.length - 1) + (56 + i)) =
      wordAt (be64 (BitVec.ofNat 64 (8 * b.length))) i := by
  have hfront := paddedFront_length b
  have hpos : 1 ≤ blockCount b.length := Nat.le_add_left ..
  rw [padded_eq_front_append, ← wordAt_append_right (paddedFront b) _ i]
  congr 1
  omega

end Sys2Proof.Machine

open Sys2Proof Sys2Proof.Machine

/-- Settles O55: the padded buffer is `paddedFront` and the length field, and `blockCount` is the least number of blocks
that holds it. -/
theorem paddingMeetsTheFiveConditions : Obligations.PaddingMeetsTheFiveConditions := by
  refine ⟨fun b => rfl, fun b _ => ⟨padded_take b, padded_getElem?_marker b, fun k => padded_getElem?_zeros b,
    padded_drop b, padded_length b, ?_, fun n hn => ?_, rfl⟩⟩
  · rw [padded_length]
    exact le_mul_blockCount b.length
  · rw [padded_length]
    exact Nat.mul_le_mul_left 64 ((le_mul_iff_blockCount_le b.length n).1 hn)

/-- Settles O56: a block's words are the big-endian numbers of the padded buffer's bytes, and the last eight bytes are
the bit length, which fits in 64 bits. -/
theorem blocksAreBigEndianWords : Obligations.BlocksAreBigEndianWords := by
  intro b hb
  have hfit : (BitVec.ofNat 64 (8 * b.length)).toNat = 8 * b.length := Nat.mod_eq_of_lt (by omega)
  obtain ⟨hhigh, hlow⟩ := wordAt_be64 (BitVec.ofNat 64 (8 * b.length))
  rw [hfit] at hhigh hlow
  refine ⟨messageBlocks_length b, Nat.le_add_left .., toNat_messageBlocks_getElem b, fun hj => ⟨?_, ?_⟩⟩
  · rw [← hhigh, ← wordAt_padded_lengthField]
    exact toNat_messageBlocks_getElem b _ 14 hj
  · rw [← hlow, ← wordAt_padded_lengthField]
    exact toNat_messageBlocks_getElem b _ 15 hj

end

section
/-! PROOFS. The driver's digest procedure on one engine (45_host_framing.md R111, R114, R115): a run beside masters that
only read gives the digest under a clean STATUS, and a discarded run has used up an arrival of the other masters, so
that recomputing ends. -/

namespace Sys2Proof.Machine

/-! ### One run -/

/-- The driver's clearing of STATUS (R134 (3)): whatever the engine was doing, its error bits are 0 afterwards. -/
theorem clearStatus_clean (b : SharedEngine) :
    ∃ t, clearStatus b = .next ⟨t, b.others.tail⟩ ∧ t.queue = [] ∧ Clean t := by
  obtain ⟨t, -, h, -⟩ := issue_eq (.write (regOffset .status) 4 0x0000000E) b
  refine ⟨_, h, performed_queue _ _, ?_⟩
  simp only [performed, target_regOffset, Reg.gatedByBusy, Bool.and_false, Bool.false_eq_true, if_false, written]
  exact ⟨Bool.and_false _, Bool.and_false _⟩

/-- The driver's INIT on an idle engine, beside masters that only read (R75). -/
theorem cmd_init_ready {b : SharedEngine} (hb : Ready b) :
    ∃ t, cmd .init b = .next t ∧ Ready t ∧ t.engine.h = IV ∧ t.engine.errBusy = b.engine.errBusy ∧
      t.engine.errCmd = b.engine.errCmd := by
  obtain ⟨u, hu, huq, h⟩ := wr_of_idle .cmd (encode .init) b hb.quiet hb.idle
  rw [show written .cmd (encode .init) (respond .done u) = reloadIV (respond .done u) from rfl] at h
  exact ⟨_, h, ⟨Quiet.of_others hb.quiet.others huq, hu.busy.trans hb.idle⟩, rfl, by rw [hu]; rfl, by rw [hu]; rfl⟩

/-- Beside masters that only read, a run from any state of the engine gives the digest (R111, R114, R115). -/
theorem digestRun_of_onlyReads (blocks : List (Vector Word 16)) {b : SharedEngine}
    (ho : ∀ evs ∈ b.others, OnlyReads evs) :
    ∃ t, digestRun blocks b = .next (.ok (serialize (blocks.foldl compress IV)), t) ∧
      t.engine.h = blocks.foldl compress IV ∧ t.engine.busy = false ∧ t.engine.queue = [] ∧ Clean t.engine := by
  obtain ⟨c, hclear, hcq, hcb, hcc⟩ := clearStatus_clean b
  obtain ⟨p, hpoll, hpb, -, -, hp⟩ := poll_ended ⟨c, b.others.tail⟩
  obtain ⟨hpq, hpw⟩ := hp (Quiet.of_others ho hcq)
  obtain ⟨i, hinit, hir, hih, hib, hic⟩ := cmd_init_ready ⟨hpq, hpb⟩
  obtain ⟨t, hrun, htr, htq, hth, htb, htc⟩ := digestFromInit_ready blocks i hir
  have hb : i.engine.errBusy = false := hib.trans (hpw.errBusy.trans hcb)
  have hc : i.engine.errCmd = false := hic.trans (hpw.errCmd.trans hcc)
  rw [hih] at hth
  refine ⟨t, ?_, hth, htr.idle, htq, htb.trans hb, htc.trans hc⟩
  simp only [digestRun, hclear, andThen, hpoll, hinit, hrun, hih, hb, hc, Bool.or_self, Bool.false_eq_true, if_false]

/-- Only a disturbed run is discarded, and it has used up an arrival of the other masters. -/
theorem others_length_lt_of_discarded {blocks : List (Vector Word 16)} {b t : SharedEngine}
    (h : digestRun blocks b = .next (.error .discarded, t)) : t.others.length < b.others.length := by
  obtain ⟨r, u, hrun, hl, -, -⟩ := digestRun_cases blocks b
  rw [h] at hrun
  cases hrun
  have hne : b.others ≠ [] := fun h0 => by
    obtain ⟨u, hu, -⟩ := digestRun_of_onlyReads blocks (b := b) (by simp [h0])
    rw [h] at hu
    cases hu
  have := List.length_pos_of_ne_nil hne
  omega

/-! ### Recomputing -/

theorem recompute_of_ok {blocks : List (Vector Word 16)} {b t : SharedEngine} {d : List Char}
    (h : digestRun blocks b = .next (.ok d, t)) (n : Nat) : recompute blocks (n + 1) b = .next (.ok d, t) := by
  simp only [recompute, h, andThen, reduceCtorEq, if_false]

theorem recompute_of_discarded {blocks : List (Vector Word 16)} {b t : SharedEngine}
    (h : digestRun blocks b = .next (.error .discarded, t)) (n : Nat) :
    recompute blocks (n + 1) b = recompute blocks n t := by
  simp only [recompute, h, andThen, if_true]

/-- With more attempts than arrivals of the other masters, a run that is not discarded comes. -/
theorem recompute_clean (blocks : List (Vector Word 16)) (n : Nat) (b : SharedEngine) (hn : b.others.length < n) :
    ∃ d t, recompute blocks n b = .next (.ok d, t) ∧ Clean t.engine := by
  induction n generalizing b with
  | zero => omega
  | succ n ih =>
    obtain ⟨r, t, hrun, -, -, ⟨rfl, -⟩ | ⟨d, rfl, hc⟩⟩ := digestRun_cases blocks b
    · have hl := others_length_lt_of_discarded hrun
      rw [recompute_of_discarded hrun]
      exact ih t (by omega)
    · exact ⟨d, t, recompute_of_ok hrun n, hc⟩

/-- Attempts beyond that number change nothing. -/
theorem recompute_congr (blocks : List (Vector Word 16)) (n k : Nat) (b : SharedEngine) (hn : b.others.length < n)
    (hk : b.others.length < k) : recompute blocks n b = recompute blocks k b := by
  induction n generalizing k b with
  | zero => omega
  | succ n ih =>
    obtain ⟨k, rfl⟩ : ∃ j, k = j + 1 := ⟨k - 1, by omega⟩
    obtain ⟨r, t, hrun, -, -, ⟨rfl, -⟩ | ⟨d, rfl, -⟩⟩ := digestRun_cases blocks b
    · have hl := others_length_lt_of_discarded hrun
      rw [recompute_of_discarded hrun, recompute_of_discarded hrun]
      exact ih k t (by omega) (by omega)
    · rw [recompute_of_ok hrun, recompute_of_ok hrun]

/-- Below the length limit of R108, `Digest` is the recomputed procedure over the input's blocks (R111). -/
theorem digest_of_bytes {bytes : List Byte} (hl : bytes.length < 2 ^ 61) (b : SharedEngine) :
    digest (.bytes bytes) b = recompute (messageBlocks bytes) (b.others.length + 1) b := by
  simp only [digest, Input.toBytes, digestBytes, pad, if_pos hl]

end Sys2Proof.Machine

open Sys2Proof Sys2Proof.Machine

/-- Settles O59: clearing STATUS and polling make any engine ready, and beside readers the rest of the run is
`digestFromInit_ready`; a discarded run leaves fewer arrivals of the other masters, so the attempts suffice and more of
them change nothing. -/
theorem driverDigestsOnTheEngine : Obligations.DriverDigestsOnTheEngine := by
  refine ⟨fun bytes b hl ho => ?_, fun bytes b hl => ?_, fun bytes b t hl h => ?_, fun b => ?_⟩
  · obtain ⟨t, hrun, hh, hb, hq, hc⟩ := digestRun_of_onlyReads (messageBlocks bytes) ho
    exact ⟨t, by rw [digest_of_bytes hl]; exact recompute_of_ok hrun _, hh, hb, hq, hc⟩
  · rw [digest_of_bytes hl]
    exact recompute_clean _ _ b (Nat.lt_succ_self _)
  · rw [digest_of_bytes hl, digest_of_bytes hl, recompute_of_discarded h]
    exact recompute_congr _ _ _ t (others_length_lt_of_discarded h) (Nat.lt_succ_self _)
  · obtain ⟨t, h, hb, -⟩ := poll_ended b
    exact ⟨t, h, hb⟩

end

section
/-! PROOFS. The errors of the engine (60_exceptions.md R116 to R123): what each one changes, the order in which they are
checked, and that none of them stops or blocks the machine. -/

namespace Sys2Proof.Machine

/-! ### BusError (R118) -/

/-- A write that reaches no register is answered and changes nothing else. -/
theorem step_of_unmappedWrite {s : State} {off : BitVec 8} {n : Nat} {v : Word} {rest : List BusEvent}
    (ht : target off n = none) (turn : HostTurn s (.write off n v) rest) :
    step s = .next (respond (.busError off) (takeEvent rest s)) := by
  rw [step_of_hostTurn turn, performed, ht]

/-- A read is answered with BusError exactly when it reaches no register. -/
theorem memRead_eq_busError_iff {off : BitVec 8} {n : Nat} {s : State} :
    memRead off n s = .busError off ↔ target off n = none := by
  unfold memRead
  cases target off n <;> simp

/-! ### ERR_CMD (R119) -/

theorem executed_of_illegal {v : Word} (hv : legal v = false) (s : State) : executed v s = flagErrCmd s := by
  obtain ⟨e, he⟩ := legal_eq_false_iff_rejected.1 hv
  rw [executed, he]

/-- The CMD write of an illegal word with BUSY = 0 completes normally and sets ERR_CMD. -/
theorem step_of_illegalWord {s : State} {v : Word} {rest : List BusEvent} (hv : legal v = false) (hb : s.busy = false)
    (turn : CmdTurn s v rest) : step s = .next (flagErrCmd (respond .done (takeEvent rest s))) := by
  rw [step_of_write turn (by simp [hb]), written, executed_of_illegal hv]

/-! ### Errors do not block (R123)

Two states agree but for their error bits and answers when they are the same with both forgotten. Every update leaves the
same state, so forgotten, whether or not its argument is forgotten first. -/

/-- The state with its error bits and the bus's answers forgotten. -/
def forgetErrors (s : State) : State := { s with errBusy := false, errCmd := false, responses := [] }

theorem sameButErrors_iff {s t : State} : SameButErrors s t ↔ forgetErrors t = forgetErrors s := by
  cases s; cases t; simp [SameButErrors, forgetErrors]

theorem effect_forgetErrors (i : Instr) (s : State) :
    forgetErrors (effect i (forgetErrors s)) = forgetErrors (effect i s) := by
  cases i
  case rotr imm | shr imm => cases hs : shiftInRange imm <;> simp only [effect, hs] <;> rfl
  all_goals rfl

theorem written_forgetErrors (r : Reg) (v : Word) (s : State) :
    forgetErrors (written r v (forgetErrors s)) = forgetErrors (written r v s) := by
  cases r
  case cmd =>
    simp only [written, executed]
    cases decode v with
    | ok i => exact effect_forgetErrors i s
    | error => rfl
  all_goals rfl

theorem performed_forgetErrors (ev : BusEvent) (s : State) :
    forgetErrors (performed ev (forgetErrors s)) = forgetErrors (performed ev s) := by
  cases ev with
  | read | reset => rfl
  | write off n v =>
    simp only [performed]
    cases target off n with
    | none => rfl
    | some r =>
      have hb : (forgetErrors s).busy = s.busy := rfl
      simp only [hb]
      split
      · rfl
      · exact (written_forgetErrors r v (respond .done (forgetErrors s))).symm.trans
          (written_forgetErrors r v (respond .done s))

theorem engineCycle_forgetErrors (s : State) :
    forgetErrors (engineCycle (forgetErrors s)) = forgetErrors (engineCycle s) := by
  obtain ⟨hc, he⟩ | ⟨hc, he⟩ := engineCycle_cases s
  · rw [he, engineCycle_of_last (s := forgetErrors s) hc]; rfl
  · rw [he, engineCycle_of_more (s := forgetErrors s) hc]; rfl

/-- Whose turn it is does not depend on the error bits or the answers, nor does what the mover does. -/
theorem step_forgetErrors {s t : State} (h : step s = .next t) :
    ∃ u, step (forgetErrors s) = .next u ∧ forgetErrors u = forgetErrors t := by
  obtain ⟨ev, rest, turn, rfl⟩ | ⟨turn, rfl⟩ | ⟨turn, rfl⟩ := step_cases h
  · exact ⟨_, step_of_hostTurn (s := forgetErrors s) turn, performed_forgetErrors ev (takeEvent rest s)⟩
  · exact ⟨_, step_of_engineTurn (s := forgetErrors s) turn, engineCycle_forgetErrors s⟩
  · exact ⟨_, step_of_idleTurn (s := forgetErrors _) turn, rfl⟩

/-- One step keeps two states alike but for errors (log entry 2: both draw the same free numbers). -/
theorem SameButErrors.step_congr {s t s' t' : State} (h : SameButErrors s t) (hs : step s = .next s')
    (ht : step t = .next t') : SameButErrors s' t' := by
  obtain ⟨u, hu, hus⟩ := step_forgetErrors hs
  obtain ⟨u', hu', hut⟩ := step_forgetErrors ht
  rw [sameButErrors_iff.1 h, hu] at hu'
  cases hu'
  exact sameButErrors_iff.2 (hut.symm.trans hus)

end Sys2Proof.Machine

open Sys2Proof Sys2Proof.Machine

/-- Settles O6: no register is reached, so the step is the answer alone, BUSY or not. -/
theorem busErrorChangesNothing : Obligations.BusErrorChangesNothing := by
  rintro s off n v rest hbad (turn | turn)
  · exact ⟨_, step_of_read turn, rfl, rfl, congrArg (· :: s.responses) (memRead_of_busError hbad s)⟩
  · exact ⟨_, step_of_unmappedWrite (target_eq_none hbad) turn, rfl, rfl, rfl⟩

/-- Settles O11: a gated write only sets ERR_BUSY; a write to STATUS can only clear it, one to a read-only register
changes nothing, and a read only answers. -/
theorem busyRejectsWrites : Obligations.BusyRejectsWrites := by
  refine ⟨fun s r v rest hg hb turn => ?_, fun s r v rest hr hb he turn => ?_, fun s r rest _ turn => ?_⟩
  · exact ⟨_, step_of_rejectedWrite hb hg turn, rfl, rfl, rfl, rfl⟩
  · obtain turn | turn := turn
    · have hg : r.gatedByBusy = false := by obtain rfl | rfl | rfl | rfl := hr <;> rfl
      refine ⟨_, step_of_write turn fun _ => hg, ?_⟩
      obtain rfl | rfl | rfl | rfl := hr <;> simp [written, he, hb]
    · exact ⟨_, step_of_read turn, he, hb⟩
  · exact ⟨_, step_of_read turn, rfl, congrArg (· :: s.responses) (memRead_regOffset r rfl rfl s)⟩

/-- Settles O12: the illegal word's step only answers and sets ERR_CMD. -/
theorem illegalWordSetsErrCmdOnly : Obligations.IllegalWordSetsErrCmdOnly :=
  fun _ _ _ hv hb turn => ⟨_, step_of_illegalWord hv hb turn, rfl, rfl, rfl, rfl⟩

/-- Settles O13: each check that applies fixes the whole step; and ERR_BUSY is set only where BUSY = 1, ERR_CMD only where
BUSY = 0 (O49), so no step sets both. -/
theorem oneErrorPerTransactionInOrder : Obligations.OneErrorPerTransactionInOrder := by
  refine ⟨fun s t off n rest turn h => ?_, fun s t off n v rest turn h heb hec => ⟨?_, ?_, ?_, ?_⟩⟩
  · rw [step_of_read turn] at h
    cases h
    exact ⟨rfl, rfl, by simp [memRead_eq_busError_iff]⟩
  · intro ht
    rw [step_of_unmappedWrite ht turn] at h
    cases h
    exact ⟨rfl, heb, hec⟩
  · intro r ht hg hb
    obtain ⟨rfl, rfl⟩ := target_eq_some_iff.1 ht
    rw [step_of_rejectedWrite hb hg turn] at h
    cases h
    exact ⟨rfl, rfl, hec⟩
  · intro ht hb hv
    obtain ⟨rfl, rfl⟩ := target_eq_some_iff.1 ht
    rw [step_of_illegalWord hv hb turn] at h
    cases h
    exact ⟨rfl, heb, rfl⟩
  · rintro ⟨heb', hec'⟩
    obtain ⟨hsetBusy, hsetCmd, -, -⟩ := errorBitsAreSticky s t h
    obtain ⟨hbusy, -⟩ := hsetBusy heb heb'
    obtain ⟨hidle, -⟩ := hsetCmd hec hec'
    simp [hbusy] at hidle

/-- Settles O44: every command answers its rejection or its effect, and whoever's turn it is moves to a next state. -/
theorem nothingStopsTheMachine : Obligations.NothingStopsTheMachine := ⟨fun i s => ⟨_, exec_eq i s⟩, exists_step⟩

/-- Settles O50: by induction on the number of steps, since one step keeps `SameButErrors`. -/
theorem errorBitsDoNotBlock : Obligations.ErrorBitsDoNotBlock := by
  intro k s t s' t' h hs ht
  induction k generalizing s t with
  | zero => cases hs; cases ht; exact h
  | succ k ih =>
    obtain ⟨u, hsu, hus⟩ := hs
    obtain ⟨u', htu, hut⟩ := ht
    exact ih u u' (h.step_congr hsu htu) hus hut

end

section
/-! PROOFS. The reset event (70_reset_and_hazards.md R131, R132): it sets every register to its value of R36, and the
COMPRESS it abandons is over, since an engine with BUSY = 0 does nothing beside a host that only reads. -/

namespace Sys2Proof.Machine

/-- The reset event is performed at once, BUSY or not. -/
theorem step_of_resetTurn {s : State} {rest : List BusEvent} (turn : HostTurn s .reset rest) :
    step s = .next (applyReset (takeEvent rest s)) := step_of_hostTurn turn

/-- The reset event leaves the state of R36 but for W, a..h and the round index, which no register shows (R35), and what
stands on the bus. -/
theorem readReg_applyReset (r : Reg) (s : State) : readReg r (applyReset s) = readReg r State.reset := by
  have hsame : SameEngine { State.reset with seq := freeSequencer s.freeCtr, cyclesLeft := 0, hostTurns := 0,
                                             freeCtr := s.freeCtr + 1 } (applyReset s) := rfl
  rw [hsame.readReg_eq, readReg_of_hidden]

/-- With BUSY = 0 and a host that only reads, nothing of the engine ever changes (R129). -/
theorem sameEngine_of_idle_stepsTo (k : Nat) {s t : State} (hb : s.busy = false) (hq : OnlyReads s.queue)
    (h : stepsTo k s t) : SameEngine s t := (waited_of_stepsTo k hq h).idle hb

end Sys2Proof.Machine

open Sys2Proof Sys2Proof.Machine

/-- Settles O4: the step is the reset event, which clears BUSY, and from there reads change nothing of the engine. -/
theorem resetAbandonsPendingCompress : Obligations.ResetAbandonsPendingCompress := by
  intro s t rest turn _ h
  rw [step_of_resetTurn turn] at h
  cases h
  refine ⟨rfl, rfl, rfl, fun hreads k u hu => ?_⟩
  have hsame : SameEngine (applyReset (takeEvent rest s)) u := sameEngine_of_idle_stepsTo k rfl hreads hu
  rw [hsame]
  exact ⟨rfl, rfl, rfl⟩

/-- Settles O3: the step is the reset event, whatever the state, and M is all zeros after it. -/
theorem resetEventRestoresResetValues : Obligations.ResetEventRestoresResetValues := by
  intro s rest turn
  exact ⟨_, step_of_resetTurn turn, rfl, fun j => by simp, rfl, rfl, rfl, rfl, rfl, rfl, rfl, rfl, rfl, rfl,
    fun r => readReg_applyReset r _⟩

end
